-- ==== Sys2Proof/Word.lean ====
section
/-! DEFINITION. The words of the rmachine core (spec/00_scope.md R8, R10). -/

namespace Sys2Proof

/-- A Word: 32 bits, unsigned (R8 `XLEN`, R10). -/
abbrev Word := BitVec 32

/-- An Address: 32 bits, naming one byte of memory (R8 `ALEN`, spec/20_memory.md R50). -/
abbrev Address := BitVec 32

/-- A memory cell: one byte (R50, spec/90_conflicts.md C3). -/
abbrev Byte := BitVec 8

end Sys2Proof
end

