-- ==== Sys2Proof/Syntax.lean ====
section
/-! DEFINITION. Register identifiers, opcodes and instructions (spec/10_state.md R22, spec/30_encoding.md R71, R73). -/

namespace Sys2Proof

/-- The 16 register identifiers, in the order of their indices 0 to 15 (R21, R22). X0 is the hardwired zero; the names
from A3 on are the spec's decision D3 and carry no behaviour (R26). -/
inductive Reg where
  | x0 | a0 | a1 | a2 | a3 | a4 | a5 | a6 | a7 | a8 | a9 | a10 | a11 | ra | sp | x15
deriving DecidableEq, Repr

/-- The closed opcode set (R2, R73). -/
inductive Opcode where
  | li | add | ecall | ebreak
deriving DecidableEq, Repr

/-- An instruction: one constructor for each row of the opcode table. Each carries all four operand fields, because
decoding extracts every field for every opcode, the unused ones included (R77, R79). -/
inductive Instr where
  /-- LI, LoadImmediate (R120): uses rd and imm. -/
  | li (rd rs1 rs2 : Reg) (imm : BitVec 15)
  /-- ADD (R121): uses every field. -/
  | add (rd rs1 rs2 : Reg) (imm : BitVec 15)
  /-- ECALL (R141): ignores every field. -/
  | ecall (rd rs1 rs2 : Reg) (imm : BitVec 15)
  /-- EBREAK (R150): ignores every field. -/
  | ebreak (rd rs1 rs2 : Reg) (imm : BitVec 15)
deriving DecidableEq, Repr

/-- The instruction with opcode `op` and the given fields (R77, the decoder's last line). -/
def Opcode.instr (op : Opcode) (rd rs1 rs2 : Reg) (imm : BitVec 15) : Instr :=
  match op with
  | .li => .li rd rs1 rs2 imm
  | .add => .add rd rs1 rs2 imm
  | .ecall => .ecall rd rs1 rs2 imm
  | .ebreak => .ebreak rd rs1 rs2 imm

/-- The opcode of an instruction. -/
def Instr.opcode : Instr → Opcode
  | .li _ _ _ _ => .li
  | .add _ _ _ _ => .add
  | .ecall _ _ _ _ => .ecall
  | .ebreak _ _ _ _ => .ebreak

/-- The rd field of an instruction. -/
def Instr.rd : Instr → Reg
  | .li rd _ _ _ => rd
  | .add rd _ _ _ => rd
  | .ecall rd _ _ _ => rd
  | .ebreak rd _ _ _ => rd

/-- The rs1 field of an instruction. -/
def Instr.rs1 : Instr → Reg
  | .li _ rs1 _ _ => rs1
  | .add _ rs1 _ _ => rs1
  | .ecall _ rs1 _ _ => rs1
  | .ebreak _ rs1 _ _ => rs1

/-- The rs2 field of an instruction. -/
def Instr.rs2 : Instr → Reg
  | .li _ _ rs2 _ => rs2
  | .add _ _ rs2 _ => rs2
  | .ecall _ _ rs2 _ => rs2
  | .ebreak _ _ rs2 _ => rs2

/-- The imm field of an instruction: unsigned, 15 bits (R76). -/
def Instr.imm : Instr → BitVec 15
  | .li _ _ _ imm => imm
  | .add _ _ _ imm => imm
  | .ecall _ _ _ imm => imm
  | .ebreak _ _ _ imm => imm

end Sys2Proof
end

