-- ==== Sys2Proof/Config.lean ====
section
/-! DEFINITION. The implementation parameters (spec/00_scope.md R8). Their reference values stand in
Sys2Proof/Machine/Params.lean. The spec leaves no value undefined, so there is no free value here
(spec/93_implementation_defined.md section 1). -/

namespace Sys2Proof

/-- `ADDR_OVERFLOW`: what an address computation past 0xFFFF_FFFF does (R8, decision D8). -/
inductive AddrOverflow where
  /-- It raises AddressOverflow before any effect. -/
  | fault
  /-- It is taken modulo 2^32. -/
  | wrap
deriving DecidableEq, Repr

/-- `PC_ON_EXEC_FAULT`: where `pc` stands after a fault raised during dispatch (R8, R108, decision D9). -/
inductive PcOnExecFault where
  /-- At the faulting instruction. -/
  | faulting
  /-- At the instruction after it. -/
  | next
deriving DecidableEq, Repr

/-- The parameters a model takes as arguments (R8). They are fixed for a machine: no step changes one (R36). -/
structure Config where
  /-- `OPC_ECALL`, the opcode value of ECALL (R73, D2). -/
  opcEcall : BitVec 5
  /-- `OPC_EBREAK`, the opcode value of EBREAK (R73, D2). -/
  opcEbreak : BitVec 5
  /-- `SYS_NUM_REG`, the register that holds the syscall identifier (R140, D4). -/
  sysNumReg : Reg
  /-- `SYS_FD_REG`, the register that holds the file descriptor of a Write (R140, D4). -/
  sysFdReg : Reg
  /-- `SYS_BUF_REG`, the register that holds the buffer address of a Write (R140, D4). -/
  sysBufReg : Reg
  /-- `SYS_LEN_REG`, the register that holds the length of a Write (R140, D4). -/
  sysLenReg : Reg
  /-- `STDOUT_FD`, the one file descriptor a Write accepts (R143, D5). -/
  stdoutFd : Word
  /-- `SINK_ATTACHED`: the host attached an output sink before the run (R36, R144). -/
  sinkAttached : Bool
  /-- `ADDR_OVERFLOW` (R52, R55, R103, D8). -/
  addrOverflow : AddrOverflow
  /-- `PC_ON_EXEC_FAULT` (R108, D9). -/
  pcOnExecFault : PcOnExecFault
  /-- `IMM_CARRIER_BITS`, the width of the immediate's carrier (R76, D20). -/
  immCarrierBits : Nat
deriving DecidableEq, Repr

end Sys2Proof
end

