-- ==== Sys2Proof/Machine/Params.lean ====
section
/-! DEFINITION. The fixed constants and the reference parameter values of spec/00_scope.md R8. They stand in this folder,
not in Config.lean, so that a later repair can reach a value. -/

namespace Sys2Proof

/-- `OPC_LI` (R8, R73: recovered from the source's decode example). -/
def opcLi : BitVec 5 := 1

/-- `OPC_ADD` (R8, R73: recovered from the source's decode example). -/
def opcAdd : BitVec 5 := 2

/-- `SYSCALL_WRITE`, the identifier of Write (R8, R142). -/
def syscallWrite : Word := 64

/-- The reset vector: the first fetch address (R8, R28, R200). -/
def resetPc : Address := 0

/-- The reference configuration (R8), with no sink attached, as R200 says it is until the host attaches one. The values of
`opcEcall`, `opcEbreak`, the syscall registers, `stdoutFd`, `addrOverflow` and `pcOnExecFault` are decisions of the spec
(D2, D4, D5, D8, D9): UNVERIFIED, unsafe, log entries 2 to 5. -/
def Config.reference : Config where
  opcEcall := 3
  opcEbreak := 4
  sysNumReg := .a7
  sysFdReg := .a0
  sysBufReg := .a1
  sysLenReg := .a2
  stdoutFd := 1
  sinkAttached := false
  addrOverflow := .fault
  pcOnExecFault := .faulting
  immCarrierBits := 16

end Sys2Proof
end

