-- ==== Sys2Proof/WellFormed.lean ====
section
/-! DEFINITION. Which parameter values are admissible, and which instructions a configuration can encode
(spec/00_scope.md R8, spec/30_encoding.md R73, R76). -/

namespace Sys2Proof

/-- The four opcode values are pairwise distinct (R8; the type keeps them within 0 to 31). -/
def Config.opcodesDistinct (c : Config) : Bool :=
  c.opcEcall != opcLi && c.opcEcall != opcAdd &&
  c.opcEbreak != opcLi && c.opcEbreak != opcAdd && c.opcEcall != c.opcEbreak

/-- The immediate's carrier holds all 15 bits (R8, R76, D20). -/
def Config.carrierWideEnough (c : Config) : Bool :=
  decide (15 ≤ c.immCarrierBits)

/-- The admissible configurations (R8). Outside them the spec gives no meaning (log entry 11). -/
def Config.wf (c : Config) : Bool :=
  c.opcodesDistinct && c.carrierWideEnough

/-- The opcode value of `op` selects `op`: no opcode tried before it, in the order of R77, has the same value. -/
def Opcode.wf (c : Config) : Opcode → Bool
  | .li => true
  | .add => opcAdd != opcLi
  | .ecall => c.opcEcall != opcLi && c.opcEcall != opcAdd
  | .ebreak => c.opcEbreak != opcLi && c.opcEbreak != opcAdd && c.opcEbreak != c.opcEcall

/-- The immediate fits the carrier (R76). -/
def Instr.immFits (c : Config) (i : Instr) : Bool :=
  decide (i.imm.toNat < 2 ^ c.immCarrierBits)

/-- A well-formed instruction of a configuration: one that has a word of its own. Under an admissible configuration every
instruction is well formed, because the types of its fields already bound them (R71, R75, R80). -/
def Instr.wf (c : Config) (i : Instr) : Bool :=
  i.opcode.wf c && i.immFits c

end Sys2Proof
end

