-- ==== Sys2Proof/Decode.lean ====
section
/-! DEFINITION. The instruction decoder and its inverse (spec/30_encoding.md R71 to R82), with the big-endian assembly of an
instruction word (spec/20_memory.md R55). -/

namespace Sys2Proof

/-! ### The fields of a word (R71, R72) -/

/-- `w[4:0]`. -/
def opcodeField (w : Word) : BitVec 5 := w.extractLsb' 0 5

/-- `w[8:5]`. -/
def rdField (w : Word) : BitVec 4 := w.extractLsb' 5 4

/-- `w[12:9]`. -/
def rs1Field (w : Word) : BitVec 4 := w.extractLsb' 9 4

/-- `w[16:13]`. -/
def rs2Field (w : Word) : BitVec 4 := w.extractLsb' 13 4

/-- `w[31:17]`. -/
def immField (w : Word) : BitVec 15 := w.extractLsb' 17 15

/-! ### The checks (R73 to R76) -/

/-- The opcode a five-bit value selects, tried in the order of R77. -/
def selectOpcode (c : Config) (v : BitVec 5) : Option Opcode :=
  if v = opcLi then some .li
  else if v = opcAdd then some .add
  else if v = c.opcEcall then some .ecall
  else if v = c.opcEbreak then some .ebreak
  else none

/-- The index of a register, which is also its field value (R22). -/
def Reg.number : Reg → BitVec 4
  | .x0 => 0 | .a0 => 1 | .a1 => 2 | .a2 => 3 | .a3 => 4 | .a4 => 5 | .a5 => 6 | .a6 => 7
  | .a7 => 8 | .a8 => 9 | .a9 => 10 | .a10 => 11 | .a11 => 12 | .ra => 13 | .sp => 14 | .x15 => 15

/-- The register a field value names (R22, R75). The check stays explicit, as R173 asks; it never fails. -/
def registerOfField (f : BitVec 4) : Option Reg :=
  match f.toNat with
  | 0 => some .x0 | 1 => some .a0 | 2 => some .a1 | 3 => some .a2
  | 4 => some .a3 | 5 => some .a4 | 6 => some .a5 | 7 => some .a6
  | 8 => some .a7 | 9 => some .a8 | 10 => some .a9 | 11 => some .a10
  | 12 => some .a11 | 13 => some .ra | 14 => some .sp | 15 => some .x15
  | _ => none

/-- The fallible conversion of the immediate into its carrier (R76, R174). It fails for no value when the carrier has 15
bits or more; for a narrower carrier it fails for the values that do not fit (DEDUCED, safe, log entry 12). -/
def narrowImm (c : Config) (v : BitVec 15) : Option (BitVec 15) :=
  if v.toNat < 2 ^ c.immCarrierBits then some v else none

/-! ### The decoder (R77) -/

/-- Why a word does not decode, with the offending raw value (R171 to R174, D19). -/
inductive DecodeError where
  /-- UnknownOpcode: `w[4:0]` (R172). -/
  | unknownOpcode (raw : BitVec 5)
  /-- UnknownRegister: the register field (R173). No word raises it. -/
  | unknownRegister (raw : BitVec 4)
  /-- ImmediateConversion: `w[31:17]` (R174). No word raises it under an admissible configuration. -/
  | immediateConversion (raw : BitVec 15)
deriving DecidableEq, Repr

/-- What decoding answers: an instruction, or an error by name. -/
inductive DecodeResult where
  | ok (i : Instr)
  | error (e : DecodeError)
deriving DecidableEq, Repr

/-- The decoder, total on all words, checking opcode, rd, rs1, rs2 and imm in this order (R77). -/
def decode (c : Config) (w : Word) : DecodeResult :=
  match selectOpcode c (opcodeField w) with
  | none => .error (.unknownOpcode (opcodeField w))
  | some op =>
    match registerOfField (rdField w) with
    | none => .error (.unknownRegister (rdField w))
    | some rd =>
      match registerOfField (rs1Field w) with
      | none => .error (.unknownRegister (rs1Field w))
      | some rs1 =>
        match registerOfField (rs2Field w) with
        | none => .error (.unknownRegister (rs2Field w))
        | some rs2 =>
          match narrowImm c (immField w) with
          | none => .error (.immediateConversion (immField w))
          | some imm => .ok (op.instr rd rs1 rs2 imm)

/-! ### The encoder (R82) -/

/-- The value of the opcode field of `op` (R73). -/
def opcodeValue (c : Config) : Opcode → BitVec 5
  | .li => opcLi
  | .add => opcAdd
  | .ecall => c.opcEcall
  | .ebreak => c.opcEbreak

/-- `imm << 17 | rs2 << 13 | rs1 << 9 | rd << 5 | op` (R82). -/
def encodeFields (op : BitVec 5) (rd rs1 rs2 : BitVec 4) (imm : BitVec 15) : Word :=
  imm.setWidth 32 <<< 17 ||| rs2.setWidth 32 <<< 13 ||| rs1.setWidth 32 <<< 9 |||
    rd.setWidth 32 <<< 5 ||| op.setWidth 32

/-- The word of an instruction (R82). -/
def encode (c : Config) (i : Instr) : Word :=
  encodeFields (opcodeValue c i.opcode) i.rd.number i.rs1.number i.rs2.number i.imm

/-! ### The bytes of a word (R55) -/

/-- The word whose bytes are `b0`, `b1`, `b2`, `b3` from the lowest address up: big-endian, `b0` most significant (R55). -/
def wordOfBytes (b0 b1 b2 b3 : Byte) : Word :=
  b0.setWidth 32 <<< 24 ||| b1.setWidth 32 <<< 16 ||| b2.setWidth 32 <<< 8 ||| b3.setWidth 32

/-- The four bytes of a word, lowest address first (R55, R202, D22). -/
def bytesOfWord (w : Word) : List Byte :=
  [w.extractLsb' 24 8, w.extractLsb' 16 8, w.extractLsb' 8 8, w.extractLsb' 0 8]

/-- The decoder over an instruction's four bytes as memory holds them. -/
def decodeBytes (c : Config) (b0 b1 b2 b3 : Byte) : DecodeResult :=
  decode c (wordOfBytes b0 b1 b2 b3)

/-- The instruction word that an opcode-table row gives with `nbits` bits; every bit above them is 0. -/
def tableWord (nbits w : Nat) : Word :=
  BitVec.ofNat 32 (w % 2 ^ nbits)

/-- The instruction the decoder reads, under the reference configuration, from the bytes of an opcode-table word. -/
def decodeTableWord (nbits w : Nat) : Option Instr :=
  match bytesOfWord (tableWord nbits w) with
  | [b0, b1, b2, b3] =>
    match decodeBytes Config.reference b0 b1 b2 b3 with
    | .ok i => some i
    | .error _ => none
  | _ => none

end Sys2Proof
end

