-- ==== Sys2Proof/Machine/State.lean ====
section
/-! DEFINITION. The state of one rmachine core (spec/10_state.md R20), the reasons a step can stop, and reset
(spec/70_reset_and_hazards.md R200). -/

namespace Sys2Proof.Machine

/-- The run status (R31). -/
inductive RunStatus where
  /-- The run continues; the value at reset. -/
  | running
  /-- EBREAK ended the run: success. -/
  | halted
  /-- A decode error, an unknown syscall or an address overflow ended the run. -/
  | faulted
  /-- A Write with an unsupported fd ended the run. -/
  | aborted
deriving DecidableEq, Repr

/-- The exception causes (R171), in the order of their codes 0 to 6. -/
inductive Cause where
  | none
  | unknownOpcode
  | unknownRegister
  | immediateConversion
  | unknownSyscall
  | unsupportedFd
  | addressOverflow
deriving DecidableEq, Repr

/-- The fault record: cause and info (R32). -/
structure FaultRecord where
  cause : Cause
  info : Word
deriving DecidableEq, Repr

/-- Memory: the bytes that differ from what an unlisted address reads as, with their addresses (R51, R66). The canonical
form is `Memory.wf` of Machine/Ops.lean. -/
abbrev Memory := List Host.Cell

/-- The architectural state (R20), with the parameters that are fixed for the machine (R8, R36; log entry 1). -/
structure State where
  /-- The program counter (R28). -/
  pc : Address
  /-- The 16 registers; entry 0 always holds 0 (R21, R24). -/
  regs : Vector Word 16
  /-- The memory `M` (R35). -/
  mem : Memory
  /-- The run status (R31). -/
  status : RunStatus
  /-- The fault record (R32). -/
  fault : FaultRecord
  /-- The output trace: one byte sequence for each append (R33). -/
  trace : List (List Byte)
  /-- The parameters (R8); no step writes them. -/
  cfg : Config
deriving DecidableEq, Repr

/-- Why a step stops without a next state. An exception is no such stop: it is a next state whose status is FAULTED or
ABORTED (R107; log entry 6). -/
inductive Fault where
  /-- A step was asked of a machine that is HALTED, FAULTED or ABORTED, where no step is defined (R100). Raised by
  `sequencerStep` alone. Safe: nothing can be proved of a state after it. -/
  | notRunning (status : RunStatus)
deriving DecidableEq, Repr

/-- Why the model gives an instruction no meaning. -/
inductive Refusal where
  /-- The instruction with this mnemonic has no meaning in the model. Raised by no arm: all four have one. Safe. -/
  | notModelled (mnemonic : String)
deriving DecidableEq, Repr

/-- The machine right after it is created (R200): everything zero, RUNNING, nothing loaded, no sink attached. -/
def State.reset : State where
  pc := resetPc
  regs := Vector.replicate 16 0
  mem := []
  status := .running
  fault := ⟨.none, 0⟩
  trace := []
  cfg := Config.reference

end Sys2Proof.Machine
end

