-- ==== Sys2Proof/Machine/Ops.lean ====
section
/-! DEFINITION. The named operations over memory (spec/20_memory.md), the output trace (spec/10_state.md R33) and the one
operation that raises an exception (spec/40_sequencer.md R107, R108). -/

namespace Sys2Proof.Machine

/-! ### Memory -/

/-- What an address that nothing has written reads as: 0 (R51). -/
def unlistedByte : Byte := 0

/-- The byte listed at address `a`, or `unlistedByte`. -/
def Memory.lookup (m : Memory) (a : Nat) : Byte :=
  match m with
  | [] => unlistedByte
  | (k, b) :: rest => if a = k then b else Memory.lookup rest a

/-- A cell as the canonical form lists it: nothing where the byte is what an unlisted address reads as. -/
def Memory.cell (a : Nat) (b : Byte) : Memory :=
  if b = unlistedByte then [] else [(a, b)]

/-- The memory with the byte at address `a` replaced, still in canonical form. -/
def Memory.update (m : Memory) (a : Nat) (b : Byte) : Memory :=
  match m with
  | [] => Memory.cell a b
  | (k, v) :: rest =>
    if a < k then Memory.cell a b ++ (k, v) :: rest
    else if a = k then Memory.cell a b ++ rest
    else (k, v) :: Memory.update rest a b

/-- The canonical form from address `lo` up: addresses strictly rising and below 2^32, and no listed byte equal to what an
unlisted address reads as. -/
def Memory.wfFrom (lo : Nat) (m : Memory) : Bool :=
  match m with
  | [] => true
  | (k, b) :: rest => decide (lo ≤ k) && decide (k < 2 ^ 32) && b != unlistedByte && Memory.wfFrom (k + 1) rest

/-- The canonical form. -/
def Memory.wf (m : Memory) : Bool := Memory.wfFrom 0 m

/-- `MemGet(a)`: the byte at `a`; it never fails and changes nothing (R51). -/
def Memory.get (m : Memory) (a : Address) : Byte := m.lookup a.toNat

/-- One byte written at `a`: the memory controller's `set` (R53). -/
def Memory.set (m : Memory) (a : Address) (b : Byte) : Memory := m.update a.toNat b

/-- `MemWrite`: the bytes stored from `a` up, first byte lowest (R53). The host's port only. Past 0xFFFF_FFFF it goes on at
address 0 (DESIGN CHOICE, unsafe, log entry 8). -/
def Memory.write (m : Memory) (a : Address) (bytes : List Byte) : Memory :=
  match bytes with
  | [] => m
  | b :: rest => Memory.write (m.set a b) (a + 1) rest

/-- The `n` bytes from `a` up, lowest address first, each address taken modulo 2^32 (R52). -/
def Memory.read (m : Memory) (a : Address) (n : Nat) : List Byte :=
  (List.range n).map fun i => m.get (a + BitVec.ofNat 32 i)

/-- The `n` bytes from `a` up pass 0xFFFF_FFFF, computed without wrap-around (R52). -/
def passesTop (a : Address) (n : Nat) : Bool :=
  decide (0 < n) && decide (0xFFFFFFFF < a.toNat + (n - 1))

/-- An address computation that passes the top is an error under `ADDR_OVERFLOW` = `fault` and none under `wrap` (D8). -/
def Config.topFaults (c : Config) : Bool :=
  match c.addrOverflow with
  | .fault => true
  | .wrap => false

/-- `MemRead(a, n)` (R52): the bytes, or `none` where it raises AddressOverflow. -/
def State.memRead (s : State) (a : Address) (n : Nat) : Option (List Byte) :=
  if passesTop a n && Config.topFaults s.cfg then none else some (s.mem.read a n)

/-- `Fetch(pc)` (R55, R101, R102): the big-endian word at `pc`, or `none` where it raises AddressOverflow. -/
def State.fetchWord (s : State) : Option Word :=
  if decide (0xFFFFFFFC < s.pc.toNat) && Config.topFaults s.cfg then none
  else some (wordOfBytes (s.mem.get s.pc) (s.mem.get (s.pc + 1)) (s.mem.get (s.pc + 2)) (s.mem.get (s.pc + 3)))

/-! ### The output trace -/

/-- `Append(bytes)`: one append event on the output trace (R33, R145). It always succeeds (R148). -/
def State.append (s : State) (bytes : List Byte) : State :=
  { s with trace := s.trace ++ [bytes] }

/-! ### The program counter and the status -/

/-- `pc <- a`: only the sequencer's advance (R103) and the restoring of R108 write `pc` (R29). -/
def State.withPc (s : State) (a : Address) : State := { s with pc := a }

/-- `status <- HALTED` (R150). -/
def State.halt (s : State) : State := { s with status := .halted }

/-! ### Exceptions -/

/-- The final status of a cause: ABORTED for UnsupportedFd, FAULTED for every other (R107, R171). -/
def Cause.finalStatus : Cause → RunStatus
  | .unsupportedFd => .aborted
  | _ => .faulted

/-- `raise Fault(cause, info)` (R107): the fault record and the status are written, and nothing else. Every exception of the
core goes through here. There is no return from one (R180). -/
def State.raise (s : State) (cause : Cause) (info : Word) : State :=
  { s with status := cause.finalStatus, fault := ⟨cause, info⟩ }

/-- Where `pc` stands after a fault raised during dispatch (R108). The advance has left `pc` at `a + 4`, modulo 2^32, so the
faulting instruction's address is `pc - 4` (DEDUCED, safe, log entry 7). -/
def State.faultPc (s : State) : Address :=
  match s.cfg.pcOnExecFault with
  | .faulting => s.pc - 4
  | .next => s.pc

/-- `raise` from a dispatch arm, after the pc advance (R107, R108). -/
def State.raiseInDispatch (s : State) (cause : Cause) (info : Word) : State :=
  (s.raise cause info).withPc s.faultPc

/-- The cause a decode error raises (R171 to R174). -/
def decodeErrorCause : DecodeError → Cause
  | .unknownOpcode _ => .unknownOpcode
  | .unknownRegister _ => .unknownRegister
  | .immediateConversion _ => .immediateConversion

/-- The info a decode error carries: the raw value, zero-extended (R171, D19). -/
def decodeErrorInfo : DecodeError → Word
  | .unknownOpcode raw => raw.setWidth 32
  | .unknownRegister raw => raw.setWidth 32
  | .immediateConversion raw => raw.setWidth 32

end Sys2Proof.Machine
end

