-- ==== Sys2Proof/Machine/Operands.lean ====
section
/-! DEFINITION. The operand forms: the register file (spec/10_state.md R23, R24) and the immediate (spec/30_encoding.md
R76). There is no other: no instruction has a memory operand or reads `pc` (R29, spec/20_memory.md R58). -/

namespace Sys2Proof.Machine

/-- The place of a register in the register file: its index (R22, R27). -/
def regIndex (r : Reg) : Fin 16 := r.number.toFin

/-- `x[r]` (R23): X0 reads 0 whatever it holds; reading changes nothing. -/
def State.readReg (s : State) (r : Reg) : Word :=
  if r = .x0 then 0 else s.regs[(regIndex r).val]

/-- The value a write stores: forced to 0 for X0 (R24). -/
def storedValue (r : Reg) (v : Word) : Word :=
  if r = .x0 then 0 else v

/-- `x[r] <- v` (R24): the one write-back of every instruction. -/
def State.writeReg (s : State) (r : Reg) (v : Word) : State :=
  { s with regs := s.regs.set (regIndex r) (storedValue r v) (regIndex r).isLt }

/-- The immediate as a Word: `zext_32(imm)`, never sign-extended, scaled or shifted (R76). -/
def immWord (imm : BitVec 15) : Word := imm.setWidth 32

end Sys2Proof.Machine
end

