-- ==== Sys2Proof/Machine/Flags.lean ====
section
/-! DEFINITION. The arithmetic of the core (spec/41_integer.md R121, R122). The core has no flags, condition codes or
predicates, and records a carry or an overflow nowhere (spec/10_state.md R30), so there is no flag computation. -/

namespace Sys2Proof.Machine

/-- The sum of ADD's three addends: their true sum, modulo 2^32 (R121). -/
def wrappingSum (v1 v2 : Word) (imm : BitVec 15) : Word :=
  BitVec.ofNat 32 (v1.toNat + v2.toNat + (immWord imm).toNat)

end Sys2Proof.Machine
end

