-- ==== Sys2Proof/Machine/Integer.lean ====
section
/-! DEFINITION. The integer instructions LI and ADD (spec/41_integer.md). An arm runs after the pc advance of
spec/40_sequencer.md R103. -/

namespace Sys2Proof.Machine

/-- LI (R120): `x[rd] <- zext_32(imm)`. -/
def execLi (rd : Reg) (imm : BitVec 15) (s : State) : Host.Outcome State Fault Refusal :=
  .next (s.writeReg rd (immWord imm))

/-- ADD (R121): both sources are read, then `x[rd]` gets the wrapping sum (R109). -/
def execAdd (rd rs1 rs2 : Reg) (imm : BitVec 15) (s : State) : Host.Outcome State Fault Refusal :=
  .next (s.writeReg rd (wrappingSum (s.readReg rs1) (s.readReg rs2) imm))

end Sys2Proof.Machine
end

