-- ==== Sys2Proof/Machine/System.lean ====
section
/-! DEFINITION. The system instructions ECALL and EBREAK and the syscall multiplexer (spec/42_system.md). An arm runs after
the pc advance of spec/40_sequencer.md R103. -/

namespace Sys2Proof.Machine

/-- The closed set of syscalls (R142). -/
inductive Syscall where
  /-- Write, identifier 64. -/
  | write
deriving DecidableEq, Repr

/-- The syscall table: 64 is Write, every other full 32-bit identifier is unknown (R142). -/
def resolveSyscall (id : Word) : Option Syscall :=
  if id = syscallWrite then some .write else none

/-- The bytes Write has read reach the sink in one append; with no sink they are discarded (R144, R145). -/
def State.output (s : State) (bytes : List Byte) : State :=
  if s.cfg.sinkAttached then s.append bytes else s

/-- The Write syscall (R146): the fd check, then the buffer range, then the append, which is the only effect (R149). -/
def State.writeSyscall (s : State) : State :=
  let fd := s.readReg s.cfg.sysFdReg
  let buf := s.readReg s.cfg.sysBufReg
  let len := s.readReg s.cfg.sysLenReg
  if fd ≠ s.cfg.stdoutFd then s.raiseInDispatch .unsupportedFd fd
  else
    match s.memRead buf len.toNat with
    | none => s.raiseInDispatch .addressOverflow buf
    | some bytes => s.output bytes

/-- ECALL (R141): it resolves the identifier and performs the syscall. It writes no register and no memory (R147). -/
def execEcall (s : State) : Host.Outcome State Fault Refusal :=
  let id := s.readReg s.cfg.sysNumReg
  match resolveSyscall id with
  | none => .next (s.raiseInDispatch .unknownSyscall id)
  | some .write => .next s.writeSyscall

/-- EBREAK (R150): `status <- HALTED`; the pc has already moved past it. -/
def execEbreak (s : State) : Host.Outcome State Fault Refusal :=
  .next s.halt

end Sys2Proof.Machine
end

