-- ==== Sys2Proof/Machine/Dispatch.lean ====
section
/-! DEFINITION. The dispatch: one arm per opcode, on the opcode alone (spec/40_sequencer.md R104). -/

namespace Sys2Proof.Machine

def exec (i : Instr) (s : State) : Host.Outcome State Fault Refusal :=
  match i with
  | .li rd _ _ imm => Sys2Proof.Machine.execLi rd imm s
  | .add rd rs1 rs2 imm => Sys2Proof.Machine.execAdd rd rs1 rs2 imm s
  | .ecall _ _ _ _ => Sys2Proof.Machine.execEcall s
  | .ebreak _ _ _ _ => Sys2Proof.Machine.execEbreak s

end Sys2Proof.Machine
end

