-- ==== Sys2Proof/Machine/Sequencer.lean ====
section
/-! DEFINITION. The program-counter sequencer: fetch, decode, advance, dispatch (spec/40_sequencer.md R100 to R103). -/

namespace Sys2Proof.Machine

/-- The pc advance (R103): `pc + 4`, or `none` where it raises AddressOverflow. -/
def State.advancePc (s : State) : Option State :=
  if s.pc = 0xFFFFFFFC && Config.topFaults s.cfg then none else some (s.withPc (s.pc + 4))

/-- A decoded instruction: the advance, then the dispatch (R101, parts 3 and 4). -/
def State.advanceAndDispatch (s : State) (i : Instr) : Host.Outcome State Fault Refusal :=
  match s.advancePc with
  | none => .next (s.raise .addressOverflow s.pc)
  | some s' => exec i s'

/-- A fetched word: decoded, and its instruction run (R101, parts 2 to 4). -/
def State.runWord (s : State) (w : Word) : Host.Outcome State Fault Refusal :=
  match decode s.cfg w with
  | .error e => .next (s.raise (decodeErrorCause e) (decodeErrorInfo e))
  | .ok i => s.advanceAndDispatch i

/-- One step (R101). It is defined only when the status is RUNNING (R100). -/
def sequencerStep (s : State) : Host.Outcome State Fault Refusal :=
  match s.status with
  | .running =>
    match s.fetchWord with
    | none => .next (s.raise .addressOverflow s.pc)
    | some w => s.runWord w
  | other => .fault (.notRunning other)

/-- The state with the bytes of `w` stored where the next fetch reads (R55). -/
def State.placeWord (s : State) (w : Word) : State :=
  { s with mem := s.mem.write s.pc (bytesOfWord w) }

end Sys2Proof.Machine
end

