-- ==== Sys2Proof/Machine/Step.lean ====
section
/-! DEFINITION. The step of the machine (spec/40_sequencer.md R101), and where an instruction is placed for the next one. -/

namespace Sys2Proof.Machine

/-- One architectural step (R101). -/
def step (s : State) : Host.Outcome State Fault Refusal := sequencerStep s

/-- `s` with the instruction of an opcode-table word at `pc`, stored big-endian as the fetch reads it (R55). It stands for
the host's load of the image (R202; log entry 13). -/
def State.withFetchWord (s : State) (nbits w : Nat) : State := s.placeWord (tableWord nbits w)

end Sys2Proof.Machine
end

