-- ==== Sys2Proof/Machine/Run.lean ====
section
/-! DEFINITION. The run and its result (spec/40_sequencer.md R105, R106). -/

namespace Sys2Proof.Machine

/-- The run loop, cut off after `k` steps: it steps while the status is RUNNING (R105). -/
def runLoop (k : Nat) (s : State) : State :=
  match k with
  | 0 => s
  | k + 1 =>
    match step s with
    | .next t => runLoop k t
    | .fault _ => s
    | .refused _ => s

/-- The result of a run that has ended (R106). -/
inductive RunResult where
  /-- HALTED: success. -/
  | success
  /-- FAULTED: the error, named by its cause and info. -/
  | error (cause : Cause) (info : Word)
  /-- ABORTED: the abort of an unsupported fd, distinct from the errors. -/
  | abort (fd : Word)
deriving DecidableEq, Repr

/-- The result the host receives (R106); none while the run goes on. -/
def State.result (s : State) : Option RunResult :=
  match s.status with
  | .running => none
  | .halted => some .success
  | .faulted => some (.error s.fault.cause s.fault.info)
  | .aborted => some (.abort s.fault.info)

end Sys2Proof.Machine
end

