-- ==== Sys2Proof/Machine/HostPort.lean ====
section
/-! DEFINITION. The host's interactions with the core: create, load, attach, run, observe, inspect
(spec/60_exceptions.md R190, spec/70_reset_and_hazards.md R201, R202). -/

namespace Sys2Proof.Machine

/-- The host stores bytes with `MemWrite` (R53). -/
def State.hostWrite (s : State) (a : Address) (bytes : List Byte) : State :=
  { s with mem := s.mem.write a bytes }

/-- The host attaches an output sink (R36, R201). -/
def State.attachSink (s : State) : State :=
  { s with cfg := { s.cfg with sinkAttached := true } }

/-- The bytes of an image held as words: word `k` at address `4k`, big-endian (R202, D22). -/
def wordImage (words : List Word) : List Byte := words.flatMap bytesOfWord

/-- A machine prepared for its run (R201): created, the image loaded at address 0, a sink attached or not. An image has at
most 2^32 bytes (R202); there is no machine for a longer one. -/
def boot (image : List Byte) (sink : Bool) : Option State :=
  if image.length ≤ 2 ^ 32 then
    let loaded := State.reset.hostWrite 0 image
    some (if sink then loaded.attachSink else loaded)
  else none

/-- A machine in the host's hands: whether the host has started the run is the host's knowledge, no part of the core's state
(R20; log entry 9). -/
structure Session where
  machine : State
  started : Bool
deriving DecidableEq, Repr

/-- Everything that can happen to a machine: the host's three moves, and the core's own step (R190). -/
inductive Event where
  /-- `host_load_we` with `host_load_addr` and `host_load_data` (R111). -/
  | loadByte (a : Address) (b : Byte)
  /-- The host attaches a sink. -/
  | attachSink
  /-- The host starts the run. -/
  | run
  /-- The core performs one step. -/
  | coreStep
deriving DecidableEq, Repr

/-- A created machine (R190, R200). -/
def Session.create : Session := ⟨State.reset, false⟩

/-- The core's move: one step once the run is started; nothing where no step is defined (R100, R105). -/
def Session.advance (x : Session) : Session :=
  match x.started, step x.machine with
  | true, .next t => { x with machine := t }
  | _, _ => x

/-- What an event does. A load is honoured only before the first step, and during the run the host changes neither memory nor
`SINK_ATTACHED` (R111, R190, D17; log entry 9). -/
def Session.handle (x : Session) : Event → Session
  | .loadByte a b => if x.started then x else { x with machine := x.machine.hostWrite a [b] }
  | .attachSink => if x.started then x else { x with machine := x.machine.attachSink }
  | .run => { x with started := true }
  | .coreStep => x.advance

/-- A sequence of events, in order. -/
def Session.handleAll (x : Session) (events : List Event) : Session := events.foldl Session.handle x

/-- The host observes the append events, in program order, during or after the run (R190). -/
def Session.observeTrace (x : Session) : List (List Byte) := x.machine.trace

/-- The run has ended: the host may inspect (R190). -/
def Session.ended (x : Session) : Bool := x.started && x.machine.status != .running

/-- The host inspects `pc` after the run ends (R28, R190). -/
def Session.inspectPc (x : Session) : Option Address :=
  if x.ended then some x.machine.pc else none

/-- The host inspects a register after the run ends (R190). -/
def Session.inspectReg (x : Session) (r : Reg) : Option Word :=
  if x.ended then some (x.machine.readReg r) else none

/-- The host inspects a byte of memory after the run ends (R190). -/
def Session.inspectByte (x : Session) (a : Address) : Option Byte :=
  if x.ended then some (x.machine.mem.get a) else none

end Sys2Proof.Machine
end

