-- ==== Sys2Proof/Machine/Assembler.lean ====
section
/-! DEFINITION. The spec's assembler forms and pseudo-instructions (spec/30_encoding.md R83, R84), as terms and not as text:
the assembler is outside the core (spec/00_scope.md R5). -/

namespace Sys2Proof.Machine

/-- One line of assembly (R83, R84). An immediate is any number; the assembler checks its range. -/
inductive AsmLine where
  | li (rd : Reg) (imm : Nat)
  | add (rd rs1 rs2 : Reg) (imm : Nat)
  | add3 (rd rs1 rs2 : Reg)
  | ecall
  | ebreak
  | nop
  | mv (rd rs : Reg)
  | word (v : Word)
  | bytes (bs : List Byte)
deriving DecidableEq, Repr

/-- An immediate is 0 to 32767; anything else is an assembly error (R83). -/
def asmImm (n : Nat) : Option (BitVec 15) :=
  if n < 2 ^ 15 then some (BitVec.ofNat 15 n) else none

/-- The bytes of an instruction as memory holds them. -/
def asmInstr (c : Config) (i : Instr) : List Byte := bytesOfWord (encode c i)

/-- The bytes of one line, or none for an assembly error (R83, R84). -/
def AsmLine.assemble (c : Config) : AsmLine → Option (List Byte)
  | .li rd imm => (asmImm imm).map fun v => asmInstr c (.li rd .x0 .x0 v)
  | .add rd rs1 rs2 imm => (asmImm imm).map fun v => asmInstr c (.add rd rs1 rs2 v)
  | .add3 rd rs1 rs2 => some (asmInstr c (.add rd rs1 rs2 0))
  | .ecall => some (asmInstr c (.ecall .x0 .x0 .x0 0))
  | .ebreak => some (asmInstr c (.ebreak .x0 .x0 .x0 0))
  | .nop => some (asmInstr c (.add .x0 .x0 .x0 0))
  | .mv rd rs => some (asmInstr c (.add rd rs .x0 0))
  | .word v => some (bytesOfWord v)
  | .bytes bs => some bs

/-- The image of a program: its lines one after another from address 0. -/
def assembleAll (c : Config) : List AsmLine → Option (List Byte)
  | [] => some []
  | line :: rest =>
    match line.assemble c, assembleAll c rest with
    | some bs, some more => some (bs ++ more)
    | _, _ => none

end Sys2Proof.Machine
end

