-- ==== Sys2Proof/Machine/Ports.lean ====
section
/-! DEFINITION. The abstract interface signals of the decoder, the syscall table and the top level
(spec/30_encoding.md R81, spec/40_sequencer.md R111). A signal the spec calls valid only in some case is absent in the others
(DESIGN CHOICE, safe, log entry 10). -/

namespace Sys2Proof.Machine

/-- The numeric code of a status (R31, D18). -/
def RunStatus.code : RunStatus → BitVec 2
  | .running => 0
  | .halted => 1
  | .faulted => 2
  | .aborted => 3

/-- The numeric code of a cause (R171, D11). -/
def Cause.code : Cause → BitVec 8
  | .none => 0
  | .unknownOpcode => 1
  | .unknownRegister => 2
  | .immediateConversion => 3
  | .unknownSyscall => 4
  | .unsupportedFd => 5
  | .addressOverflow => 6

/-- The decoder's outputs that are valid when `dec_ok` (R81). -/
structure DecodedFields where
  decOp : BitVec 5
  decRd : BitVec 4
  decRs1 : BitVec 4
  decRs2 : BitVec 4
  decImm : BitVec 15
deriving DecidableEq, Repr

/-- The decoder's outputs (R81). -/
structure DecoderPort where
  decOk : Bool
  fields : Option DecodedFields
  decErrCause : BitVec 8
  decErrInfo : Option Word
deriving DecidableEq, Repr

/-- The decoder as a combinational block (R81). -/
def decoderPort (c : Config) (w : Word) : DecoderPort :=
  match decode c w with
  | .ok i =>
    { decOk := true
      fields := some ⟨opcodeValue c i.opcode, i.rd.number, i.rs1.number, i.rs2.number, i.imm⟩
      decErrCause := Cause.none.code
      decErrInfo := none }
  | .error e =>
    { decOk := false
      fields := none
      decErrCause := (decodeErrorCause e).code
      decErrInfo := some (decodeErrorInfo e) }

/-- The syscall table's outputs: `sys_ok` and `sys_kind` (R111, R142). -/
structure SyscallPort where
  sysOk : Bool
  sysKind : Option Syscall
deriving DecidableEq, Repr

/-- The syscall table as a block with input `id` (R111). -/
def syscallPort (id : Word) : SyscallPort :=
  ⟨(resolveSyscall id).isSome, resolveSyscall id⟩

/-- The top level's outputs (R111). -/
structure TopPort where
  status : BitVec 2
  faultCause : BitVec 8
  faultInfo : Word
  pcOut : Address
deriving DecidableEq, Repr

/-- The top level's outputs in a state (R111). -/
def State.topPort (s : State) : TopPort :=
  ⟨s.status.code, s.fault.cause.code, s.fault.info, s.pc⟩

/-- `reg_peek_val` for `reg_peek_idx` (R111). -/
def State.regPeek (s : State) (idx : BitVec 4) : Option Word :=
  (registerOfField idx).map s.readReg

/-- `sink_append_valid` and `sink_append_bytes` of the step from `s`: the append it makes, if any (R111, R145). -/
def State.sinkAppend (s : State) : Option (List Byte) :=
  match step s with
  | .next t => (t.trace.drop s.trace.length).head?
  | .fault _ => none
  | .refused _ => none

end Sys2Proof.Machine
end

