-- ==== Sys2Proof/Safety.lean ====
section
/-! DEFINITION. What claims are stated in: the ways a run ends, what a state keeps from another, and the invariant of the
machine. -/

namespace Sys2Proof.Machine

/-! ### How a run ends -/

/-- A terminal state: no step is defined in it (R100). -/
def State.ended (s : State) : Bool := s.status != .running

/-- A run that ended in an error or an abort: for a safety claim the two are alike
(spec/93_implementation_defined.md U3). -/
def State.failed (s : State) : Bool := s.status == .faulted || s.status == .aborted

/-- A run from `s` is safe for `k` steps: it has not failed. -/
def SafeFor (k : Nat) (s : State) : Prop := (runLoop k s).failed = false

/-- `t` is reached from `s` by some number of steps. -/
inductive Reaches : State → State → Prop where
  | refl (s : State) : Reaches s s
  | step {s t u : State} : Reaches s t → step t = .next u → Reaches s u

/-! ### What stays the same -/

/-- Every register reads as before. -/
def SameRegs (s t : State) : Prop := ∀ r, t.readReg r = s.readReg r

/-- Every byte of memory reads as before. -/
def SameMem (s t : State) : Prop := ∀ a, t.mem.get a = s.mem.get a

/-- Status and fault record are as before. -/
def SameRunState (s t : State) : Prop := t.status = s.status ∧ t.fault = s.fault

/-- The same state with another output trace. -/
def State.withTrace (s : State) (tr : List (List Byte)) : State := { s with trace := tr }

/-- The pc can advance: it is not at the last word, or addresses wrap (R103). -/
def State.CanAdvance (s : State) : Prop := s.pc ≠ 0xFFFFFFFC ∨ s.cfg.addrOverflow = .wrap

/-! ### The invariant -/

/-- X0's entry of the register file holds 0 (R24). -/
def State.ZeroReg (s : State) : Prop := s.regs[0] = 0

/-- The fault record says what the status says (R31, R32, R107): nothing while RUNNING or HALTED, an UnsupportedFd when
ABORTED, another cause when FAULTED. -/
def State.FaultAgrees (s : State) : Prop :=
  match s.status with
  | .running => s.fault = ⟨.none, 0⟩
  | .halted => s.fault = ⟨.none, 0⟩
  | .aborted => s.fault.cause = .unsupportedFd
  | .faulted => s.fault.cause ≠ .none ∧ s.fault.cause ≠ .unsupportedFd

/-- The causes no word raises are not recorded (R75, R76, R173, R174). -/
def State.CauseReachable (s : State) : Prop :=
  s.fault.cause ≠ .unknownRegister ∧ s.fault.cause ≠ .immediateConversion

/-- The pc is a multiple of 4 (R57). -/
def State.PcAligned (s : State) : Prop := s.pc.toNat % 4 = 0

/-- The invariant of every state a run from reset reaches. -/
structure State.Inv (s : State) : Prop where
  memWf : s.mem.wf = true
  zeroReg : s.ZeroReg
  faultAgrees : s.FaultAgrees
  causeReachable : s.CauseReachable
  pcAligned : s.PcAligned
  cfgWf : s.cfg.wf = true

end Sys2Proof.Machine
end

