-- ==== Sys2Proof/Certificates/Slice0/Obligations.lean ====
section
/-! DEFINITION. The statements for the provers. Each docstring names the rule of spec/ it formalises. A statement about all
states is about all parameter values too, because the state carries the configuration (log entry 1). -/

open Sys2Proof Sys2Proof.Machine

/-! ### Encoding and decoding -/

/-- R72: the five fields of a word, as numbers. -/
def Obligations.FieldsOfAWordAreItsBitRanges : Prop :=
  ∀ w : Word,
    (opcodeField w).toNat = w.toNat % 2 ^ 5 ∧
    (rdField w).toNat = w.toNat / 2 ^ 5 % 2 ^ 4 ∧
    (rs1Field w).toNat = w.toNat / 2 ^ 9 % 2 ^ 4 ∧
    (rs2Field w).toNat = w.toNat / 2 ^ 13 % 2 ^ 4 ∧
    (immField w).toNat = w.toNat / 2 ^ 17

/-- R82 (an inference of the spec from R71 and R77): an instruction is decoded back from its word exactly when it is well
formed, and under an admissible configuration every instruction is. -/
def Obligations.DecodeInvertsEncode : Prop :=
  ∀ c : Config,
    (∀ i : Instr, decode c (encode c i) = .ok i ↔ i.wf c = true) ∧
    (c.wf = true → ∀ i : Instr, i.wf c = true)

/-- R82 (an inference of the spec from R71 and R77): no bit of a word that decodes is lost. -/
def Obligations.EncodeInvertsDecode : Prop :=
  ∀ (c : Config) (w : Word) (i : Instr), decode c w = .ok i → encode c i = w ∧ i.wf c = true

/-- R172: an opcode field that matches no opcode is UnknownOpcode with the raw five bits, whatever the other fields are; under
the reference parameters exactly for 0 and 5 to 31. -/
def Obligations.UnknownOpcodeExactlyForUndefinedValues : Prop :=
  (∀ (c : Config) (w : Word),
    decode c w = .error (.unknownOpcode (opcodeField w)) ↔
      opcodeField w ≠ 1 ∧ opcodeField w ≠ 2 ∧ opcodeField w ≠ c.opcEcall ∧ opcodeField w ≠ c.opcEbreak) ∧
  (∀ (c : Config) (w : Word) (raw : BitVec 5), decode c w = .error (.unknownOpcode raw) →
    raw = opcodeField w ∧ (decodeErrorInfo (.unknownOpcode raw)).toNat = w.toNat % 2 ^ 5) ∧
  (∀ w : Word, decode Config.reference w = .error (.unknownOpcode (opcodeField w)) ↔
    w.toNat % 2 ^ 5 = 0 ∨ 5 ≤ w.toNat % 2 ^ 5)

/-- R75: the register map is a bijection, so no register field is ever rejected, and each field names its register. -/
def Obligations.NoRegisterFieldIsRejected : Prop :=
  (∀ f : BitVec 4, ∃ r, registerOfField f = some r ∧ ∀ q : Reg, q.number = f ↔ q = r) ∧
  (∀ (c : Config) (w : Word) (raw : BitVec 4), decode c w ≠ .error (.unknownRegister raw)) ∧
  (∀ (c : Config) (w : Word) (i : Instr), decode c w = .ok i →
    i.rd.number = rdField w ∧ i.rs1.number = rs1Field w ∧ i.rs2.number = rs2Field w)

/-- R76: with a carrier of 15 bits or more the immediate always converts; it fails only for a narrower one; and as a Word it is
the field's own unsigned value. -/
def Obligations.ImmediateIsTheUnsignedField : Prop :=
  (∀ c : Config, (∃ w raw, decode c w = .error (.immediateConversion raw)) → c.immCarrierBits < 15) ∧
  (∀ (c : Config) (w : Word) (i : Instr), decode c w = .ok i →
    i.imm = immField w ∧ (immWord i.imm).toNat = w.toNat / 2 ^ 17 ∧ w.toNat / 2 ^ 17 ≤ 32767)

/-- R80 (an inference of the spec from R73 to R76): under an admissible configuration every word is one of the four
instructions or an UnknownOpcode. -/
def Obligations.EveryWordDecodesOrIsUnknownOpcode : Prop :=
  ∀ c : Config, c.wf = true → ∀ w : Word,
    (∃ i, decode c w = .ok i) ∨ decode c w = .error (.unknownOpcode (opcodeField w))

/-- Unused fields (spec/30_encoding.md section 4) may hold any value: ECALL and EBREAK ignore all four fields, LI its rs1 and rs2. -/
def Obligations.UnusedFieldsNeverMatter : Prop :=
  ∀ (s : State) (w v : Word), s.cfg.wf = true → opcodeField w = opcodeField v →
    (opcodeField w = s.cfg.opcEcall ∨ opcodeField w = s.cfg.opcEbreak ∨
      (opcodeField w = 1 ∧ rdField w = rdField v ∧ immField w = immField v)) →
    (∃ i, decode s.cfg w = .ok i) ∧ s.runWord w = s.runWord v

/-- R81: the decoder block's outputs. -/
def Obligations.DecoderPortShowsTheFieldsOrTheError : Prop :=
  ∀ (c : Config) (w : Word),
    ((decoderPort c w).decOk = true ↔ ∃ i, decode c w = .ok i) ∧
    ((decoderPort c w).decErrCause = 0 ↔ (decoderPort c w).decOk = true) ∧
    ((decoderPort c w).decOk = true →
      (decoderPort c w).fields = some ⟨opcodeField w, rdField w, rs1Field w, rs2Field w, immField w⟩) ∧
    (∀ e, decode c w = .error e →
      (decoderPort c w).decErrInfo = some (decodeErrorInfo e) ∧
      (decoderPort c w).decErrCause = match e with
        | .unknownOpcode _ => 1
        | .unknownRegister _ => 2
        | .immediateConversion _ => 3)

/-- Words written out from R71 and R73 (spec/95_test_vectors.md V-DEC-1, V-DEC-2, V-DEC-10, V-DEC-12) decode to the
instructions they stand for. -/
def Obligations.SampleWordsDecode : Prop :=
  decode Config.reference 0b000000000000010_0000_0000_0001_00001 = .ok (.li .a0 .x0 .x0 2) ∧
  decode Config.reference 0b000000000000000_0011_0010_0001_00010 = .ok (.add .a0 .a1 .a2 0) ∧
  decode Config.reference 0b111111111111111_1111_1111_1111_00011 = .ok (.ecall .x15 .x15 .x15 32767) ∧
  decode Config.reference 0b111111111111111_1111_1111_1111_00100 = .ok (.ebreak .x15 .x15 .x15 32767)

/-! ### Memory -/

/-- R55: the fetch is big-endian; past 0xFFFF_FFFC it fails under `fault` and goes on modulo 2^32 under `wrap`; no state
reached from a created machine gets there. -/
def Obligations.FetchIsBigEndian : Prop :=
  (∀ s : State,
    (s.pc.toNat ≤ 0xFFFFFFFC ∨ s.cfg.addrOverflow = .wrap →
      ∃ w, s.fetchWord = some w ∧
        w.toNat = (s.mem.get s.pc).toNat * 2 ^ 24 + (s.mem.get (s.pc + 1)).toNat * 2 ^ 16 +
          (s.mem.get (s.pc + 2)).toNat * 2 ^ 8 + (s.mem.get (s.pc + 3)).toNat) ∧
    (0xFFFFFFFC < s.pc.toNat → s.cfg.addrOverflow = .fault → s.fetchWord = none)) ∧
  (∀ (events : List Event) (t : State), Reaches (Session.create.handleAll events).machine t → t.pc.toNat ≤ 0xFFFFFFFC)

/-- R52: `MemRead` gives the bytes in order, or raises AddressOverflow where the range passes 0xFFFF_FFFF under `fault`. The
one instruction that reads through it is ECALL. -/
def Obligations.MemReadGivesTheBytesOrOverflows : Prop :=
  ∀ (s : State) (a : Address) (n : Nat),
    (0xFFFFFFFF < a.toNat + (n - 1) ∧ 0 < n ∧ s.cfg.addrOverflow = .fault → s.memRead a n = none) ∧
    (a.toNat + (n - 1) ≤ 0xFFFFFFFF ∨ n = 0 ∨ s.cfg.addrOverflow = .wrap →
      ∃ bytes, s.memRead a n = some bytes ∧ bytes.length = n ∧
        ∀ (i : Nat) (h : i < bytes.length), bytes[i] = s.mem.get (BitVec.ofNat 32 ((a.toNat + i) % 2 ^ 32))) ∧
    (s.memRead a n = none → s.readReg s.cfg.sysNumReg = 64 → s.readReg s.cfg.sysFdReg = s.cfg.stdoutFd →
      s.readReg s.cfg.sysBufReg = a → (s.readReg s.cfg.sysLenReg).toNat = n →
      ∀ rd rs1 rs2 imm, exec (.ecall rd rs1 rs2 imm) s = .next (s.raiseInDispatch .addressOverflow a))

/-- How memory is stored is not visible (spec/20_memory.md section 6): two canonical memories that read alike are equal. The
canonical form is the model's choice (log entry 14). -/
def Obligations.CanonicalMemoriesThatReadAlikeAreEqual : Prop :=
  ∀ m m' : Memory, m.wf = true → m'.wf = true → (∀ a : Address, m.get a = m'.get a) → m = m'

/-- The host's `MemWrite` (spec/20_memory.md section 1) stores its bytes from the address up, first byte lowest, and changes no other byte. -/
def Obligations.MemWriteStoresExactlyItsBytes : Prop :=
  ∀ (m : Memory) (a : Address) (bytes : List Byte), m.wf = true → a.toNat + bytes.length ≤ 2 ^ 32 →
    (∀ (i : Nat) (h : i < bytes.length), (m.write a bytes).get (a + BitVec.ofNat 32 i) = bytes[i]) ∧
    (∀ x : Address, x.toNat < a.toNat ∨ a.toNat + bytes.length ≤ x.toNat → (m.write a bytes).get x = m.get x)

/-- R202: the image stands at address 0 and every other byte is 0; a word image is fetched back word by word; the core
validates nothing. -/
def Obligations.BootLoadsTheImageAtZero : Prop :=
  (∀ (image : List Byte) (sink : Bool), image.length ≤ 2 ^ 32 →
    ∃ s, boot image sink = some s ∧
      (∀ a : Address, s.mem.get a = if h : a.toNat < image.length then image[a.toNat] else 0) ∧
      s.pc = 0 ∧ (∀ r, s.readReg r = 0) ∧ s.status = .running ∧ s.fault = ⟨.none, 0⟩ ∧ s.trace = [] ∧
      s.cfg = { Config.reference with sinkAttached := sink }) ∧
  (∀ (words : List Word) (sink : Bool), 4 * words.length ≤ 2 ^ 32 →
    ∃ s, boot (wordImage words) sink = some s ∧
      ∀ (k : Nat) (h : k < words.length),
        (s.withPc (BitVec.ofNat 32 (4 * k))).fetchWord = some words[k])

/-- R54: memory at every point of a run is the memory at its start. -/
def Obligations.MemoryIsConstantDuringARun : Prop :=
  ∀ (k : Nat) (s : State), (runLoop k s).mem = s.mem ∧ SameMem s (runLoop k s)

/-! ### Registers -/

/-- R23: after any writes a register reads the last value written to it, or what it read before; X0 always reads 0; and reset
registers read 0. -/
def Obligations.RegistersReadTheLastValueWritten : Prop :=
  (∀ (writes : List (Reg × Word)) (s : State) (q : Reg),
    (writes.foldl (fun u p => u.writeReg p.1 p.2) s).readReg q =
      if q = .x0 then 0
      else (((writes.filter fun p => p.1 = q).getLast?).map Prod.snd).getD (s.readReg q)) ∧
  (∀ q : Reg, State.reset.readReg q = 0)

/-! ### LI and ADD -/

/-- LI completes: its result and everything it leaves alone (spec/41_integer.md, LI). -/
def Obligations.LiCompletesWithItsImmediate : Prop :=
  ∀ (rd rs1 rs2 : Reg) (imm : BitVec 15) (s : State),
    ∃ t, exec (.li rd rs1 rs2 imm) s = .next t ∧
      (∀ r, (t.readReg r).toNat = if r = rd ∧ rd ≠ .x0 then imm.toNat else (s.readReg r).toNat) ∧
      SameMem s t ∧ SameRunState s t ∧ t.pc = s.pc ∧ t.trace = s.trace ∧ t.cfg = s.cfg

/-- ADD completes: its result from the values before it (R109) and everything it leaves alone (spec/41_integer.md, ADD). -/
def Obligations.AddCompletesWithTheWrappingSum : Prop :=
  ∀ (rd rs1 rs2 : Reg) (imm : BitVec 15) (s : State),
    ∃ t, exec (.add rd rs1 rs2 imm) s = .next t ∧
      (∀ r, (t.readReg r).toNat =
        if r = rd ∧ rd ≠ .x0 then ((s.readReg rs1).toNat + (s.readReg rs2).toNat + imm.toNat) % 2 ^ 32
        else (s.readReg r).toNat) ∧
      SameMem s t ∧ SameRunState s t ∧ t.pc = s.pc ∧ t.trace = s.trace ∧ t.cfg = s.cfg

/-- R120: a word with opcode 1, fetched where the pc can advance, loads its immediate and does nothing else. -/
def Obligations.LiWordLoadsItsImmediate : Prop :=
  ∀ (s : State) (w : Word), s.status = .running → s.cfg.wf = true → s.fetchWord = some w →
    w.toNat % 2 ^ 5 = 1 → s.CanAdvance →
    ∃ t, step s = .next t ∧
      (∀ r, (t.readReg r).toNat =
        if r.number.toNat = w.toNat / 2 ^ 5 % 2 ^ 4 ∧ r ≠ .x0 then w.toNat / 2 ^ 17 else (s.readReg r).toNat) ∧
      SameMem s t ∧ SameRunState s t ∧ t.pc = s.pc + 4 ∧ t.trace = s.trace ∧ t.cfg = s.cfg

/-- R121: a word with opcode 2, fetched where the pc can advance, writes the wrapping sum and does nothing else. -/
def Obligations.AddWordWritesTheWrappingSum : Prop :=
  ∀ (s : State) (w : Word) (q1 q2 : Reg), s.status = .running → s.cfg.wf = true → s.fetchWord = some w →
    w.toNat % 2 ^ 5 = 2 → q1.number.toNat = w.toNat / 2 ^ 9 % 2 ^ 4 → q2.number.toNat = w.toNat / 2 ^ 13 % 2 ^ 4 →
    s.CanAdvance →
    ∃ t, step s = .next t ∧
      (∀ r, (t.readReg r).toNat =
        if r.number.toNat = w.toNat / 2 ^ 5 % 2 ^ 4 ∧ r ≠ .x0
        then ((s.readReg q1).toNat + (s.readReg q2).toNat + w.toNat / 2 ^ 17) % 2 ^ 32
        else (s.readReg r).toNat) ∧
      SameMem s t ∧ SameRunState s t ∧ t.pc = s.pc + 4 ∧ t.trace = s.trace ∧ t.cfg = s.cfg

/-- R122 (an inference of the spec from R121 and R10): the sum of three addends does not depend on their order or grouping,
and it is the bit vectors' own sum. -/
def Obligations.WrappingSumIsCommutativeAndAssociative : Prop :=
  ∀ (v1 v2 v3 : Word) (imm : BitVec 15),
    wrappingSum v1 v2 imm = wrappingSum v2 v1 imm ∧
    wrappingSum (wrappingSum v1 v2 0) v3 imm = wrappingSum v1 (wrappingSum v2 v3 0) imm ∧
    wrappingSum v1 v2 imm = v1 + v2 + immWord imm

/-! ### ECALL and EBREAK -/

/-- R142: the syscall table. -/
def Obligations.SyscallTableKnowsOnlyWrite : Prop :=
  (∀ id : Word, id.toNat = 64 → resolveSyscall id = some .write) ∧
  (∀ id : Word, id.toNat ≠ 64 → resolveSyscall id = none ∧
    ∀ (s : State) (rd rs1 rs2 : Reg) (imm : BitVec 15), s.readReg s.cfg.sysNumReg = id →
      ∃ t, exec (.ecall rd rs1 rs2 imm) s = .next t ∧ t.fault = ⟨.unknownSyscall, id⟩)

/-- R145: ECALL completes as a Write: with a sink exactly one append of exactly the buffer's bytes,
without one nothing; and everything it leaves alone. -/
def Obligations.EcallWriteCompletesWithOneAppend : Prop :=
  ∀ (rd rs1 rs2 : Reg) (imm : BitVec 15) (s : State),
    s.readReg s.cfg.sysNumReg = 64 → s.readReg s.cfg.sysFdReg = s.cfg.stdoutFd →
    ((s.readReg s.cfg.sysBufReg).toNat + (s.readReg s.cfg.sysLenReg).toNat ≤ 2 ^ 32 ∨
      s.readReg s.cfg.sysLenReg = 0 ∨ s.cfg.addrOverflow = .wrap) →
    ∃ t, exec (.ecall rd rs1 rs2 imm) s = .next t ∧
      (s.cfg.sinkAttached = true → ∃ bytes, t.trace = s.trace ++ [bytes] ∧
        bytes.length = (s.readReg s.cfg.sysLenReg).toNat ∧
        ∀ (i : Nat) (h : i < bytes.length),
          bytes[i] = s.mem.get (BitVec.ofNat 32 (((s.readReg s.cfg.sysBufReg).toNat + i) % 2 ^ 32))) ∧
      (s.cfg.sinkAttached = false → t.trace = s.trace) ∧
      SameRegs s t ∧ SameMem s t ∧ SameRunState s t ∧ t.pc = s.pc ∧ t.cfg = s.cfg

/-- R149, with R144, R147, R175 and R176: the checks of an ECALL in their order, the first that fails deciding the outcome; a failed
one appends nothing; no register and no byte of memory is ever written. -/
def Obligations.EcallChecksInOrder : Prop :=
  ∀ (rd rs1 rs2 : Reg) (imm : BitVec 15) (s : State),
    ∃ t, exec (.ecall rd rs1 rs2 imm) s = .next t ∧ SameRegs s t ∧ SameMem s t ∧ t.cfg = s.cfg ∧
      if s.readReg s.cfg.sysNumReg ≠ 64 then
        t.status = .faulted ∧ t.fault = ⟨.unknownSyscall, s.readReg s.cfg.sysNumReg⟩ ∧ t.trace = s.trace
      else if s.readReg s.cfg.sysFdReg ≠ s.cfg.stdoutFd then
        t.status = .aborted ∧ t.fault = ⟨.unsupportedFd, s.readReg s.cfg.sysFdReg⟩ ∧ t.trace = s.trace
      else if s.cfg.addrOverflow = .fault ∧ s.readReg s.cfg.sysLenReg ≠ 0 ∧
          2 ^ 32 < (s.readReg s.cfg.sysBufReg).toNat + (s.readReg s.cfg.sysLenReg).toNat then
        t.status = .faulted ∧ t.fault = ⟨.addressOverflow, s.readReg s.cfg.sysBufReg⟩ ∧ t.trace = s.trace
      else
        SameRunState s t ∧ t.pc = s.pc ∧
        t.trace = if s.cfg.sinkAttached then
          s.trace ++ [s.mem.read (s.readReg s.cfg.sysBufReg) (s.readReg s.cfg.sysLenReg).toNat] else s.trace

/-- EBREAK completes: it halts, and leaves everything else alone (spec/42_system.md, EBREAK). -/
def Obligations.EbreakCompletesHalted : Prop :=
  ∀ (rd rs1 rs2 : Reg) (imm : BitVec 15) (s : State),
    ∃ t, exec (.ebreak rd rs1 rs2 imm) s = .next t ∧ t.status = .halted ∧
      SameRegs s t ∧ SameMem s t ∧ t.fault = s.fault ∧ t.pc = s.pc ∧ t.trace = s.trace ∧ t.cfg = s.cfg

/-- EBREAK (spec/42_system.md section 4): a word with its opcode, fetched where the pc can advance, halts the machine with the
pc past it; at the last word under `fault` the advance faults first; and the halted machine never steps. That a step asked of
it stops with `notRunning` is the model's choice (log entry 6). -/
def Obligations.EbreakWordHaltsPastItself : Prop :=
  ∀ (s : State) (w : Word), s.status = .running → s.cfg.wf = true → s.fetchWord = some w →
    opcodeField w = s.cfg.opcEbreak →
    (s.CanAdvance → ∃ t, step s = .next t ∧ t.status = .halted ∧ t.pc = s.pc + 4 ∧
      SameRegs s t ∧ SameMem s t ∧ t.fault = s.fault ∧ t.trace = s.trace ∧ t.cfg = s.cfg ∧
      step t = .fault (.notRunning .halted)) ∧
    (¬ s.CanAdvance → step s = .next (s.raise .addressOverflow s.pc))

/-- Of all steps, only one that runs an EBREAK halts (spec/10_state.md, table of the run status). -/
def Obligations.OnlyEbreakHalts : Prop :=
  ∀ s t : State, step s = .next t →
    (t.status = .halted ↔
      ∃ w i, s.fetchWord = some w ∧ decode s.cfg w = .ok i ∧ i.opcode = .ebreak ∧ s.CanAdvance)

/-! ### The step -/

/-- The step (spec/40_sequencer.md section 1): a RUNNING machine whose bytes at `pc` decode to an instruction runs it, with `pc` advanced first. -/
def Obligations.StepRunsTheDecodedInstruction : Prop :=
  ∀ (s : State) (i : Instr), s.status = .running → (s.pc.toNat ≤ 0xFFFFFFFC ∨ s.cfg.addrOverflow = .wrap) →
    decodeBytes s.cfg (s.mem.get s.pc) (s.mem.get (s.pc + 1)) (s.mem.get (s.pc + 2)) (s.mem.get (s.pc + 3)) = .ok i →
    (s.CanAdvance → step s = exec i (s.withPc (s.pc + 4))) ∧
    (¬ s.CanAdvance → step s = .next (s.raise .addressOverflow s.pc))

/-- R103: the pc advance of every decoded instruction, and what it does at 0xFFFF_FFFC. -/
def Obligations.DecodedInstructionsAdvanceThePc : Prop :=
  ∀ (s : State) (w : Word) (i : Instr), s.status = .running → s.fetchWord = some w → decode s.cfg w = .ok i →
    ∃ t, step s = .next t ∧
      (s.pc = 0xFFFFFFFC → s.cfg.addrOverflow = .fault →
        t.fault = ⟨.addressOverflow, s.pc⟩ ∧ t.status = .faulted ∧ t.pc = s.pc ∧
        t.regs = s.regs ∧ t.mem = s.mem ∧ t.trace = s.trace) ∧
      (s.CanAdvance → t.failed = false → t.pc.toNat = (s.pc.toNat + 4) % 2 ^ 32)

/-- R178: at most one exception a step, the first check that fails, in the order of the list. -/
def Obligations.FirstFailingCheckDecidesTheException : Prop :=
  ∀ (s : State) (w : Word), s.status = .running → s.cfg.wf = true →
    w = wordOfBytes (s.mem.get s.pc) (s.mem.get (s.pc + 1)) (s.mem.get (s.pc + 2)) (s.mem.get (s.pc + 3)) →
    ∃ t, step s = .next t ∧
      if 0xFFFFFFFC < s.pc.toNat ∧ s.cfg.addrOverflow = .fault then
        t.fault = ⟨.addressOverflow, s.pc⟩ ∧ t.failed = true
      else if opcodeField w ≠ 1 ∧ opcodeField w ≠ 2 ∧ opcodeField w ≠ s.cfg.opcEcall ∧ opcodeField w ≠ s.cfg.opcEbreak then
        t.fault = ⟨.unknownOpcode, (opcodeField w).setWidth 32⟩ ∧ t.failed = true
      else if s.pc = 0xFFFFFFFC ∧ s.cfg.addrOverflow = .fault then
        t.fault = ⟨.addressOverflow, s.pc⟩ ∧ t.failed = true
      else if opcodeField w = s.cfg.opcEcall ∧ s.readReg s.cfg.sysNumReg ≠ 64 then
        t.fault = ⟨.unknownSyscall, s.readReg s.cfg.sysNumReg⟩ ∧ t.failed = true
      else if opcodeField w = s.cfg.opcEcall ∧ s.readReg s.cfg.sysFdReg ≠ s.cfg.stdoutFd then
        t.fault = ⟨.unsupportedFd, s.readReg s.cfg.sysFdReg⟩ ∧ t.failed = true
      else if opcodeField w = s.cfg.opcEcall ∧ s.cfg.addrOverflow = .fault ∧ s.readReg s.cfg.sysLenReg ≠ 0 ∧
          2 ^ 32 < (s.readReg s.cfg.sysBufReg).toNat + (s.readReg s.cfg.sysLenReg).toNat then
        t.fault = ⟨.addressOverflow, s.readReg s.cfg.sysBufReg⟩ ∧ t.failed = true
      else t.fault = s.fault ∧ t.failed = false

/-- R107: a step that raises leaves registers, memory and trace exactly as they were, records a cause and an info, and aborts
for UnsupportedFd alone. -/
def Obligations.FailingStepsLeaveNoEffect : Prop :=
  ∀ s t : State, step s = .next t → t.failed = true →
    t.regs = s.regs ∧ t.mem = s.mem ∧ t.trace = s.trace ∧ t.cfg = s.cfg ∧
    (∃ cause info, cause ≠ .none ∧ t.fault = ⟨cause, info⟩ ∧ ∃ pc, t = (s.raise cause info).withPc pc) ∧
    (t.status = .aborted ↔ t.fault.cause = .unsupportedFd) ∧ (t.status = .faulted ↔ t.fault.cause ≠ .unsupportedFd)

/-- R108: `pc` after a failing step: the faulting address before the advance, and by `PC_ON_EXEC_FAULT` during dispatch. -/
def Obligations.PcAfterAFailingStep : Prop :=
  ∀ s t : State, step s = .next t → t.failed = true →
    ((∃ w i, s.fetchWord = some w ∧ decode s.cfg w = .ok i ∧ s.CanAdvance) →
      (s.cfg.pcOnExecFault = .faulting → t.pc = s.pc) ∧ (s.cfg.pcOnExecFault = .next → t.pc = s.pc + 4)) ∧
    ((¬ ∃ w i, s.fetchWord = some w ∧ decode s.cfg w = .ok i ∧ s.CanAdvance) → t.pc = s.pc)

/-- R177: AddressOverflow is raised in three cases, under `fault` alone, with the base address; the first case is reached from
no created machine. -/
def Obligations.AddressOverflowInThreeCasesOnly : Prop :=
  (∀ s t : State, step s = .next t → s.fault.cause = .none →
    (t.fault.cause = .addressOverflow ↔
      s.cfg.addrOverflow = .fault ∧
        (0xFFFFFFFC < s.pc.toNat ∨
          (∃ w i, s.fetchWord = some w ∧ decode s.cfg w = .ok i ∧
            (s.pc = 0xFFFFFFFC ∨
              (s.pc.toNat < 0xFFFFFFFC ∧ i.opcode = .ecall ∧ s.readReg s.cfg.sysNumReg = 64 ∧
                s.readReg s.cfg.sysFdReg = s.cfg.stdoutFd ∧ s.readReg s.cfg.sysLenReg ≠ 0 ∧
                2 ^ 32 < (s.readReg s.cfg.sysBufReg).toNat + (s.readReg s.cfg.sysLenReg).toNat))))) ∧
    (t.fault.cause = .addressOverflow →
      (0xFFFFFFFC ≤ s.pc.toNat → t.fault.info = s.pc) ∧
      (s.pc.toNat < 0xFFFFFFFC → t.fault.info = s.readReg s.cfg.sysBufReg))) ∧
  (∀ (events : List Event) (u : State), Reaches (Session.create.handleAll events).machine u → u.pc.toNat ≤ 0xFFFFFFFC)

/-- No step is defined in a terminal state and nothing changes there (spec/40_sequencer.md section 1); a RUNNING machine always
steps. That a step asked of a terminal machine stops with `notRunning` is the model's choice (log entry 6). -/
def Obligations.TerminalStatesNeverStep : Prop :=
  ∀ s : State,
    (s.status ≠ .running → step s = .fault (.notRunning s.status) ∧ ∀ k, runLoop k s = s) ∧
    (s.status = .running → ∃ t, step s = .next t)

/-! ### The run -/

/-- R106: the result of a run is its final status, and the causes are told apart. -/
def Obligations.ResultIsTheFinalStatus : Prop :=
  ∀ s : State,
    (s.result = some .success ↔ s.status = .halted) ∧
    (∀ cause info, s.result = some (.error cause info) ↔
      s.status = .faulted ∧ s.fault.cause = cause ∧ s.fault.info = info) ∧
    (∀ fd, s.result = some (.abort fd) ↔ s.status = .aborted ∧ s.fault.info = fd) ∧
    (s.result = none ↔ s.status = .running)

/-- The fault record (spec/10_state.md section 5) is (NONE, 0) at reset, is written when the status leaves RUNNING for FAULTED or ABORTED and at no
other step, and is never cleared. -/
def Obligations.FaultRecordIsWrittenOnce : Prop :=
  State.reset.fault = ⟨.none, 0⟩ ∧
  (∀ s t : State, s.Inv → step s = .next t → (t.fault ≠ s.fault ↔ t.failed = true)) ∧
  (∀ (k : Nat) (s : State), s.failed = true → (runLoop k s).fault = s.fault)

/-- The output trace only grows, by at most one append a step, and no instruction reads it (spec/10_state.md, section 5, the
output trace): the same step from any other trace does the same. -/
def Obligations.TraceIsAppendOnlyAndNeverRead : Prop :=
  ∀ s t : State, step s = .next t →
    ∃ new : List (List Byte), new.length ≤ 1 ∧ t.trace = s.trace ++ new ∧
      (∀ tr, step (s.withTrace tr) = .next (t.withTrace (tr ++ new))) ∧
      (new ≠ [] → s.cfg.sinkAttached = true ∧
        ∃ w i, s.fetchWord = some w ∧ decode s.cfg w = .ok i ∧ i.opcode = .ecall)

/-- Appends stand in program order (spec/42_system.md section 3): the trace of a shorter run begins the trace of a longer one,
and `k` steps make at most `k` appends. -/
def Obligations.LongerRunsExtendTheTrace : Prop :=
  ∀ (j k : Nat) (s : State), j ≤ k →
    (runLoop j s).trace <+: (runLoop k s).trace ∧ (runLoop k s).trace.length ≤ s.trace.length + k

/-- With no sink attached a run outputs nothing, and a run never changes the parameters (spec/10_state.md section 7,
`SINK_ATTACHED`). -/
def Obligations.ParametersAreFixedAndNoSinkMeansNoOutput : Prop :=
  ∀ (k : Nat) (s : State), (runLoop k s).cfg = s.cfg ∧
    (s.cfg.sinkAttached = false → (runLoop k s).trace = s.trace)

/-- R110 (an inference of the spec from R103 and R104): control flow is sequential: while a run goes on, its `k`-th step
fetches from `4k` bytes past the start. -/
def Obligations.ControlFlowIsSequential : Prop :=
  ∀ (k : Nat) (s : State), (runLoop k s).status = .running →
    (runLoop k s).pc.toNat = (s.pc.toNat + 4 * k) % 2 ^ 32

/-- R105 (an inference of the spec from R103, R110 and R28): under `fault` every run ends within 2^30 steps. -/
def Obligations.EveryRunEndsUnderFault : Prop :=
  ∀ (k : Nat) (s : State), 2 ^ 30 ≤ k → s.cfg.addrOverflow = .fault → (runLoop k s).status ≠ .running

/-- R205 (an inference of the spec from R51 and R74): where opcode value 0 is not assigned, a run that reaches memory nothing
has written faults with UnknownOpcode(0). -/
def Obligations.UnwrittenMemoryFaultsAsUnknownOpcode : Prop :=
  ∀ s : State, s.status = .running → s.pc.toNat ≤ 0xFFFFFFFC → s.cfg.opcEcall ≠ 0 → s.cfg.opcEbreak ≠ 0 →
    (∀ i : Nat, i < 4 → s.mem.get (s.pc + BitVec.ofNat 32 i) = 0) →
    ∃ t, step s = .next t ∧ t.status = .faulted ∧ t.fault = ⟨.unknownOpcode, 0⟩ ∧ t.pc = s.pc ∧
      SameRegs s t ∧ SameMem s t ∧ t.trace = s.trace

/-! ### Reset, the invariant, the host -/

/-- R200: the state after reset. -/
def Obligations.ResetLeavesEverythingZeroAndRunning : Prop :=
  State.reset.pc = 0 ∧ (∀ r, State.reset.readReg r = 0) ∧ (∀ i : Fin 16, State.reset.regs[i.val] = 0) ∧
  (∀ a, State.reset.mem.get a = 0) ∧ State.reset.status = .running ∧ State.reset.fault = ⟨.none, 0⟩ ∧
  State.reset.trace = [] ∧ State.reset.cfg.sinkAttached = false

/-- The invariant holds after reset (spec/70_reset_and_hazards.md section 1). The canonical form of memory in it is the model's
choice (log entry 14). -/
def Obligations.ResetMeetsTheInvariant : Prop := State.reset.Inv

/-- Every step keeps the invariant: the memory stays canonical, X0's entry stays 0, the fault record agrees with the status,
no unreachable cause is recorded, the pc stays aligned, the parameters stay admissible. The canonical form of memory is the
model's choice (log entry 14). -/
def Obligations.EveryStepKeepsTheInvariant : Prop :=
  ∀ s t : State, s.Inv → step s = .next t → t.Inv

/-- Whatever the host and the core do from creation on, in whatever order, the invariant holds, and so does it in every state
the core then reaches (spec/60_exceptions.md section 7; sessions are the model's form of it, log entry 9, and
the canonical form of memory is the model's choice, log entry 14). -/
def Obligations.SessionsKeepTheInvariant : Prop :=
  ∀ (events : List Event) (t : State), Reaches (Session.create.handleAll events).machine t → t.Inv

/-- Fetch coherence (spec/20_memory.md section 6, and log entry 9 for what the host may try): once the run is started nothing changes memory or the parameters, whatever the host tries, and the output only
grows. -/
def Obligations.NothingChangesMemoryOnceTheRunStarts : Prop :=
  ∀ (x : Session) (events : List Event), x.started = true →
    (x.handleAll events).machine.mem = x.machine.mem ∧ (x.handleAll events).machine.cfg = x.machine.cfg ∧
    x.observeTrace <+: (x.handleAll events).observeTrace ∧ (x.handleAll events).started = true

/-- The top level's append signals (spec/40_sequencer.md section 6) show exactly the step's append, and the trace is those
appends in order. -/
def Obligations.SinkSignalsShowEveryAppend : Prop :=
  ∀ s t : State, step s = .next t →
    t.trace = s.trace ++ s.sinkAppend.toList ∧
    ∀ bytes, s.sinkAppend = some bytes ↔ t.trace = s.trace ++ [bytes]

/-- The host inspects only a run that has ended (spec/60_exceptions.md section 7, and log entry 9), and then sees the frozen state: whatever
happens afterwards, `pc`, registers and memory stay as they were at the end. -/
def Obligations.InspectionSeesTheFrozenState : Prop :=
  ∀ (x : Session) (events : List Event),
    (x.ended = true →
      x.inspectPc = some x.machine.pc ∧ (∀ r, x.inspectReg r = some (x.machine.readReg r)) ∧
      (∀ a, x.inspectByte a = some (x.machine.mem.get a)) ∧ (x.handleAll events).machine = x.machine) ∧
    (x.ended = false → x.inspectPc = none ∧ (∀ r, x.inspectReg r = none) ∧ ∀ a, x.inspectByte a = none)

/-- The numeric codes of the statuses and causes (spec/10_state.md section 5, spec/60_exceptions.md section 1). -/
def Obligations.CodesAreTheTables : Prop :=
  ([RunStatus.running, .halted, .faulted, .aborted].map fun x => (RunStatus.code x).toNat) = [0, 1, 2, 3] ∧
  ([Cause.none, .unknownOpcode, .unknownRegister, .immediateConversion, .unknownSyscall, .unsupportedFd,
    .addressOverflow].map fun x => (Cause.code x).toNat) = [0, 1, 2, 3, 4, 5, 6]

/-- R84: `nop` is the word 2; `mv` is an ADD with X0 and copies a register; for X0 as destination it changes no register. -/
def Obligations.PseudoInstructionsAreAdds : Prop :=
  AsmLine.nop.assemble Config.reference = some (bytesOfWord 2) ∧
  (∀ (rd rs : Reg), (AsmLine.mv rd rs).assemble Config.reference =
    some (bytesOfWord (encode Config.reference (.add rd rs .x0 0)))) ∧
  (∀ (rd rs : Reg) (s : State), ∃ t, exec (.add rd rs .x0 0) s = .next t ∧
    ∀ r, t.readReg r = if r = rd ∧ rd ≠ .x0 then s.readReg rs else s.readReg r)
end

