-- ==== Sys2Proof/Laws/Decode.lean ====
section
/-! SUPPORT. The laws of the decoder's parts: register fields, the fields of an encoded word, the bytes of a word, and what a
decoded instruction says of its word. -/

namespace Sys2Proof

/-! ### Register fields -/

@[simp] theorem registerOfField_number (r : Reg) : registerOfField r.number = some r := by
  cases r <;> rfl

/-- Every field value names exactly one register (R75). -/
theorem registerOfField_eq_some (f : BitVec 4) : ∃ r, registerOfField f = some r ∧ r.number = f := by
  revert f
  decide

theorem registerOfField_eq_some_iff {f : BitVec 4} {r : Reg} : registerOfField f = some r ↔ r.number = f := by
  obtain ⟨q, hq, rfl⟩ := registerOfField_eq_some f
  rw [hq, Option.some.injEq]
  exact ⟨fun h => h ▸ rfl, fun h => by simpa [registerOfField_number, hq] using congrArg registerOfField h.symm⟩

/-! ### Fields of an encoded word -/

section Fields

variable (op : BitVec 5) (rd rs1 rs2 : BitVec 4) (imm : BitVec 15)

@[simp] theorem opcodeField_encodeFields : opcodeField (encodeFields op rd rs1 rs2 imm) = op := by
  ext i hi
  interval_cases i <;> simp [opcodeField, encodeFields]

@[simp] theorem rdField_encodeFields : rdField (encodeFields op rd rs1 rs2 imm) = rd := by
  ext i hi
  interval_cases i <;> simp [rdField, encodeFields]

@[simp] theorem rs1Field_encodeFields : rs1Field (encodeFields op rd rs1 rs2 imm) = rs1 := by
  ext i hi
  interval_cases i <;> simp [rs1Field, encodeFields]

@[simp] theorem rs2Field_encodeFields : rs2Field (encodeFields op rd rs1 rs2 imm) = rs2 := by
  ext i hi
  interval_cases i <;> simp [rs2Field, encodeFields]

@[simp] theorem immField_encodeFields : immField (encodeFields op rd rs1 rs2 imm) = imm := by
  ext i hi
  interval_cases i <;> simp [immField, encodeFields]

end Fields

/-- The five fields cover the word: no bit of it is lost (R71). -/
theorem encodeFields_fields (w : Word) :
    encodeFields (opcodeField w) (rdField w) (rs1Field w) (rs2Field w) (immField w) = w := by
  ext i hi
  interval_cases i <;> simp [encodeFields, opcodeField, rdField, rs1Field, rs2Field, immField]

/-! ### Bytes of a word -/

/-- A word stored big-endian is fetched back unchanged (R55, D22). -/
theorem wordOfBytes_bytesOfWord (w : Word) :
    wordOfBytes (w.extractLsb' 24 8) (w.extractLsb' 16 8) (w.extractLsb' 8 8) (w.extractLsb' 0 8) = w := by
  ext i hi
  interval_cases i <;> simp [wordOfBytes]

/-! ### What decoding can answer -/

@[simp] theorem Opcode.instr_opcode (op : Opcode) (rd rs1 rs2 : Reg) (imm : BitVec 15) :
    (op.instr rd rs1 rs2 imm).opcode = op := by cases op <;> rfl

@[simp] theorem Opcode.instr_rd (op : Opcode) (rd rs1 rs2 : Reg) (imm : BitVec 15) :
    (op.instr rd rs1 rs2 imm).rd = rd := by cases op <;> rfl

@[simp] theorem Opcode.instr_rs1 (op : Opcode) (rd rs1 rs2 : Reg) (imm : BitVec 15) :
    (op.instr rd rs1 rs2 imm).rs1 = rs1 := by cases op <;> rfl

@[simp] theorem Opcode.instr_rs2 (op : Opcode) (rd rs1 rs2 : Reg) (imm : BitVec 15) :
    (op.instr rd rs1 rs2 imm).rs2 = rs2 := by cases op <;> rfl

@[simp] theorem Opcode.instr_imm (op : Opcode) (rd rs1 rs2 : Reg) (imm : BitVec 15) :
    (op.instr rd rs1 rs2 imm).imm = imm := by cases op <;> rfl

/-- An instruction is its opcode and its fields. -/
theorem Instr.eq_instr (i : Instr) : i.opcode.instr i.rd i.rs1 i.rs2 i.imm = i := by
  cases i <;> rfl

/-- The immediate's conversion is the identity on the values the carrier holds, and fails on the others (R76). -/
theorem narrowImm_eq_some_iff {c : Config} {v u : BitVec 15} :
    narrowImm c v = some u ↔ u = v ∧ v.toNat < 2 ^ c.immCarrierBits := by
  unfold narrowImm
  split
  · rename_i h
    simp only [Option.some.injEq, h, and_true]
    exact eq_comm
  · rename_i h
    simp [h]

theorem narrowImm_eq_none_iff {c : Config} {v : BitVec 15} :
    narrowImm c v = none ↔ 2 ^ c.immCarrierBits ≤ v.toNat := by
  simp [narrowImm]

/-- Everything a decoded instruction says of its word. -/
theorem decode_eq_ok_iff {c : Config} {w : Word} {i : Instr} :
    decode c w = .ok i ↔
      selectOpcode c (opcodeField w) = some i.opcode ∧ i.rd.number = rdField w ∧ i.rs1.number = rs1Field w ∧
        i.rs2.number = rs2Field w ∧ i.imm = immField w ∧ i.imm.toNat < 2 ^ c.immCarrierBits := by
  obtain ⟨rd, hrd, nrd⟩ := registerOfField_eq_some (rdField w)
  obtain ⟨rs1, hrs1, nrs1⟩ := registerOfField_eq_some (rs1Field w)
  obtain ⟨rs2, hrs2, nrs2⟩ := registerOfField_eq_some (rs2Field w)
  simp only [decode, hrd, hrs1, hrs2]
  cases hop : selectOpcode c (opcodeField w) with
  | none => simp
  | some op =>
    cases himm : narrowImm c (immField w) with
    | none =>
      have := narrowImm_eq_none_iff.1 himm
      simp only [reduceCtorEq, false_iff, not_and]
      intro _ _ _ _ h
      rw [h]
      omega
    | some imm =>
      obtain ⟨rfl, hlt⟩ := narrowImm_eq_some_iff.1 himm
      simp only [DecodeResult.ok.injEq, Option.some.injEq]
      constructor
      · rintro rfl
        simp [nrd, nrs1, nrs2, hlt]
      · rintro ⟨h1, h2, h3, h4, h5, -⟩
        rw [← i.eq_instr, ← h1, ← h5, ← registerOfField_eq_some_iff.2 h2 |>.symm.trans hrd |> Option.some.inj,
          ← registerOfField_eq_some_iff.2 h3 |>.symm.trans hrs1 |> Option.some.inj,
          ← registerOfField_eq_some_iff.2 h4 |>.symm.trans hrs2 |> Option.some.inj]

/-- Everything a decode error says of its word: the opcode selects nothing, or the immediate does not fit its carrier. -/
theorem decode_eq_error {c : Config} {w : Word} {e : DecodeError} (h : decode c w = .error e) :
    (e = .unknownOpcode (opcodeField w) ∧ selectOpcode c (opcodeField w) = none) ∨
      (e = .immediateConversion (immField w) ∧ (selectOpcode c (opcodeField w)).isSome ∧
        2 ^ c.immCarrierBits ≤ (immField w).toNat) := by
  obtain ⟨rd, hrd, -⟩ := registerOfField_eq_some (rdField w)
  obtain ⟨rs1, hrs1, -⟩ := registerOfField_eq_some (rs1Field w)
  obtain ⟨rs2, hrs2, -⟩ := registerOfField_eq_some (rs2Field w)
  simp only [decode, hrd, hrs1, hrs2] at h
  cases hop : selectOpcode c (opcodeField w) with
  | none => simp only [hop, DecodeResult.error.injEq] at h; exact .inl ⟨h.symm, rfl⟩
  | some op =>
    cases himm : narrowImm c (immField w) with
    | none =>
      simp only [hop, himm, DecodeResult.error.injEq] at h
      exact .inr ⟨h.symm, rfl, narrowImm_eq_none_iff.1 himm⟩
    | some imm => simp [hop, himm] at h

end Sys2Proof
end

