-- ==== Sys2Proof/Laws/Memory.lean ====
section
/-! SUPPORT. The laws of memory: what a read gives after a write, and that every memory operation keeps the canonical form. -/

namespace Sys2Proof.Machine

/-! ### The canonical form -/

theorem Memory.wf_nil : Memory.wf [] = true := rfl

theorem Memory.wfFrom_cons {lo k : Nat} {b : Byte} {m : Memory} :
    Memory.wfFrom lo ((k, b) :: m) = true ↔
      lo ≤ k ∧ k < 2 ^ 32 ∧ b ≠ unlistedByte ∧ Memory.wfFrom (k + 1) m = true := by
  simp [Memory.wfFrom, and_assoc]

theorem Memory.wfFrom_mono {lo lo' : Nat} {m : Memory} (h : lo' ≤ lo) (hm : Memory.wfFrom lo m = true) :
    Memory.wfFrom lo' m = true := by
  cases m with
  | nil => rfl
  | cons c rest =>
    obtain ⟨hk, hb, hu, hr⟩ := Memory.wfFrom_cons.1 hm
    exact Memory.wfFrom_cons.2 ⟨h.trans hk, hb, hu, hr⟩

theorem Memory.wfFrom_cell_append {lo a : Nat} {b : Byte} {m : Memory} (hlo : lo ≤ a) (ha : a < 2 ^ 32)
    (hm : Memory.wfFrom (a + 1) m = true) : Memory.wfFrom lo (Memory.cell a b ++ m) = true := by
  unfold Memory.cell
  split
  · exact Memory.wfFrom_mono (by omega) hm
  · rename_i hb
    exact Memory.wfFrom_cons.2 ⟨hlo, ha, hb, hm⟩

theorem Memory.wfFrom_update {lo a : Nat} {b : Byte} {m : Memory} (hlo : lo ≤ a) (ha : a < 2 ^ 32)
    (hm : Memory.wfFrom lo m = true) : Memory.wfFrom lo (m.update a b) = true := by
  induction m generalizing lo with
  | nil => simpa [Memory.update] using Memory.wfFrom_cell_append (m := []) hlo ha rfl
  | cons c rest ih =>
    obtain ⟨k, v⟩ := c
    obtain ⟨hk, hb, hu, hr⟩ := Memory.wfFrom_cons.1 hm
    simp only [Memory.update]
    split
    · exact Memory.wfFrom_cell_append hlo ha (Memory.wfFrom_cons.2 ⟨by omega, hb, hu, hr⟩)
    · split
      · rename_i h
        exact Memory.wfFrom_cell_append hlo ha (h ▸ hr)
      · exact Memory.wfFrom_cons.2 ⟨hk, hb, hu, ih (by omega) hr⟩

/-- `set` keeps the canonical form. -/
theorem Memory.wf_set {m : Memory} (hm : m.wf = true) (a : Address) (b : Byte) : (m.set a b).wf = true :=
  Memory.wfFrom_update (Nat.zero_le _) a.isLt hm

/-- `MemWrite` keeps the canonical form. -/
theorem Memory.wf_write {m : Memory} (hm : m.wf = true) (a : Address) (bytes : List Byte) :
    (m.write a bytes).wf = true := by
  induction bytes generalizing m a with
  | nil => exact hm
  | cons b rest ih => exact ih (Memory.wf_set hm a b) (a + 1)

/-! ### Reading after writing -/

theorem Memory.lookup_below {lo a : Nat} {m : Memory} (h : a < lo) (hm : Memory.wfFrom lo m = true) :
    m.lookup a = unlistedByte := by
  induction m generalizing lo with
  | nil => rfl
  | cons c rest ih =>
    obtain ⟨k, v⟩ := c
    obtain ⟨hk, _, _, hr⟩ := Memory.wfFrom_cons.1 hm
    simp only [Memory.lookup, if_neg (show a ≠ k by omega)]
    exact ih (by omega) hr

theorem Memory.lookup_cell_append {a x : Nat} {b : Byte} {m : Memory} (hm : Memory.wfFrom (a + 1) m = true) :
    (Memory.cell a b ++ m).lookup x = if x = a then b else m.lookup x := by
  unfold Memory.cell
  split
  · rename_i hb
    split
    · subst hb
      exact Memory.lookup_below (by omega) hm
    · rfl
  · rfl

theorem Memory.lookup_update {lo a x : Nat} {b : Byte} {m : Memory} (hm : Memory.wfFrom lo m = true) :
    (m.update a b).lookup x = if x = a then b else m.lookup x := by
  induction m generalizing lo with
  | nil => simpa [Memory.update] using Memory.lookup_cell_append (m := []) (x := x) (b := b) (a := a) rfl
  | cons c rest ih =>
    obtain ⟨k, v⟩ := c
    obtain ⟨_, hb, hu, hr⟩ := Memory.wfFrom_cons.1 hm
    simp only [Memory.update]
    split
    · exact Memory.lookup_cell_append (Memory.wfFrom_cons.2 ⟨by omega, hb, hu, hr⟩)
    · split
      · rename_i h
        subst h
        rw [Memory.lookup_cell_append hr]
        by_cases hx : x = a <;> simp [Memory.lookup, hx]
      · rename_i hka
        by_cases hxk : x = k
        · subst hxk
          simp [Memory.lookup, if_neg (Ne.symm hka)]
        · simp [Memory.lookup, hxk, ih hr]

/-- A read after a write of one byte: the byte written at its address, and the old byte everywhere else. -/
theorem Memory.get_set {m : Memory} (hm : m.wf = true) (a x : Address) (b : Byte) :
    (m.set a b).get x = if x = a then b else m.get x := by
  simp only [Memory.get, Memory.set, Memory.lookup_update hm, BitVec.toNat_inj]

/-- What `MemRead`'s bytes are: as many as asked for, each the byte at its own address. -/
@[simp] theorem Memory.length_read (m : Memory) (a : Address) (n : Nat) : (m.read a n).length = n := by
  simp [Memory.read]

theorem Memory.getElem_read (m : Memory) (a : Address) (n i : Nat) (h : i < (m.read a n).length) :
    (m.read a n)[i] = m.get (a + BitVec.ofNat 32 i) := by
  simp [Memory.read]

end Sys2Proof.Machine
end

