-- ==== Sys2Proof/Laws/PerInstr.lean ====
section
/-! SUPPORT. Statements about every instruction as syntax, one lemma per constructor. -/

namespace Sys2Proof

/-- The fields of an instruction's word are the instruction's own fields (spec/30_encoding.md R71, R72). -/
def Laws.EncodedFields.Statement (i : Instr) : Prop :=
  ∀ c : Config,
    opcodeField (encode c i) = opcodeValue c i.opcode ∧ rdField (encode c i) = i.rd.number ∧
    rs1Field (encode c i) = i.rs1.number ∧ rs2Field (encode c i) = i.rs2.number ∧ immField (encode c i) = i.imm

theorem Laws.EncodedFields.all (i : Instr) : Laws.EncodedFields.Statement i := fun c => by
  simp [encode]

theorem Laws.EncodedFields.li (rd rs1 rs2 : Reg) (imm : BitVec 15) :
    Laws.EncodedFields.Statement (.li rd rs1 rs2 imm) := Laws.EncodedFields.all _

theorem Laws.EncodedFields.add (rd rs1 rs2 : Reg) (imm : BitVec 15) :
    Laws.EncodedFields.Statement (.add rd rs1 rs2 imm) := Laws.EncodedFields.all _

theorem Laws.EncodedFields.ecall (rd rs1 rs2 : Reg) (imm : BitVec 15) :
    Laws.EncodedFields.Statement (.ecall rd rs1 rs2 imm) := Laws.EncodedFields.all _

theorem Laws.EncodedFields.ebreak (rd rs1 rs2 : Reg) (imm : BitVec 15) :
    Laws.EncodedFields.Statement (.ebreak rd rs1 rs2 imm) := Laws.EncodedFields.all _

end Sys2Proof
end

