-- ==== Sys2Proof/Laws/State.lean ====
section
/-! SUPPORT. What each named update of State does to each field: one lemma per field per update. -/

namespace Sys2Proof.Machine

variable (s : State)

/-! ### `withTrace` -/

@[simp] theorem State.withTrace_pc (tr : List (List Byte)) : (s.withTrace tr).pc = s.pc := rfl

@[simp] theorem State.withTrace_regs (tr : List (List Byte)) : (s.withTrace tr).regs = s.regs := rfl

@[simp] theorem State.withTrace_mem (tr : List (List Byte)) : (s.withTrace tr).mem = s.mem := rfl

@[simp] theorem State.withTrace_status (tr : List (List Byte)) : (s.withTrace tr).status = s.status := rfl

@[simp] theorem State.withTrace_fault (tr : List (List Byte)) : (s.withTrace tr).fault = s.fault := rfl

@[simp] theorem State.withTrace_trace (tr : List (List Byte)) : (s.withTrace tr).trace = tr := rfl

@[simp] theorem State.withTrace_cfg (tr : List (List Byte)) : (s.withTrace tr).cfg = s.cfg := rfl

/-! ### `withPc` -/

@[simp] theorem State.withPc_pc (a : Address) : (s.withPc a).pc = a := rfl

@[simp] theorem State.withPc_regs (a : Address) : (s.withPc a).regs = s.regs := rfl

@[simp] theorem State.withPc_mem (a : Address) : (s.withPc a).mem = s.mem := rfl

@[simp] theorem State.withPc_status (a : Address) : (s.withPc a).status = s.status := rfl

@[simp] theorem State.withPc_fault (a : Address) : (s.withPc a).fault = s.fault := rfl

@[simp] theorem State.withPc_trace (a : Address) : (s.withPc a).trace = s.trace := rfl

@[simp] theorem State.withPc_cfg (a : Address) : (s.withPc a).cfg = s.cfg := rfl

/-! ### `halt` -/

@[simp] theorem State.halt_pc : (s.halt).pc = s.pc := rfl

@[simp] theorem State.halt_regs : (s.halt).regs = s.regs := rfl

@[simp] theorem State.halt_mem : (s.halt).mem = s.mem := rfl

@[simp] theorem State.halt_status : (s.halt).status = .halted := rfl

@[simp] theorem State.halt_fault : (s.halt).fault = s.fault := rfl

@[simp] theorem State.halt_trace : (s.halt).trace = s.trace := rfl

@[simp] theorem State.halt_cfg : (s.halt).cfg = s.cfg := rfl

/-! ### `writeReg` -/

@[simp] theorem State.writeReg_pc (r : Reg) (v : Word) : (s.writeReg r v).pc = s.pc := rfl

@[simp] theorem State.writeReg_regs (r : Reg) (v : Word) : (s.writeReg r v).regs = s.regs.set (regIndex r) (storedValue r v) (regIndex r).isLt := rfl

@[simp] theorem State.writeReg_mem (r : Reg) (v : Word) : (s.writeReg r v).mem = s.mem := rfl

@[simp] theorem State.writeReg_status (r : Reg) (v : Word) : (s.writeReg r v).status = s.status := rfl

@[simp] theorem State.writeReg_fault (r : Reg) (v : Word) : (s.writeReg r v).fault = s.fault := rfl

@[simp] theorem State.writeReg_trace (r : Reg) (v : Word) : (s.writeReg r v).trace = s.trace := rfl

@[simp] theorem State.writeReg_cfg (r : Reg) (v : Word) : (s.writeReg r v).cfg = s.cfg := rfl

/-! ### `append` -/

@[simp] theorem State.append_pc (bytes : List Byte) : (s.append bytes).pc = s.pc := rfl

@[simp] theorem State.append_regs (bytes : List Byte) : (s.append bytes).regs = s.regs := rfl

@[simp] theorem State.append_mem (bytes : List Byte) : (s.append bytes).mem = s.mem := rfl

@[simp] theorem State.append_status (bytes : List Byte) : (s.append bytes).status = s.status := rfl

@[simp] theorem State.append_fault (bytes : List Byte) : (s.append bytes).fault = s.fault := rfl

@[simp] theorem State.append_trace (bytes : List Byte) : (s.append bytes).trace = s.trace ++ [bytes] := rfl

@[simp] theorem State.append_cfg (bytes : List Byte) : (s.append bytes).cfg = s.cfg := rfl

/-! ### `raise` -/

@[simp] theorem State.raise_pc (c : Cause) (info : Word) : (s.raise c info).pc = s.pc := rfl

@[simp] theorem State.raise_regs (c : Cause) (info : Word) : (s.raise c info).regs = s.regs := rfl

@[simp] theorem State.raise_mem (c : Cause) (info : Word) : (s.raise c info).mem = s.mem := rfl

@[simp] theorem State.raise_status (c : Cause) (info : Word) : (s.raise c info).status = c.finalStatus := rfl

@[simp] theorem State.raise_fault (c : Cause) (info : Word) : (s.raise c info).fault = ⟨c, info⟩ := rfl

@[simp] theorem State.raise_trace (c : Cause) (info : Word) : (s.raise c info).trace = s.trace := rfl

@[simp] theorem State.raise_cfg (c : Cause) (info : Word) : (s.raise c info).cfg = s.cfg := rfl

/-! ### `raiseInDispatch` -/

@[simp] theorem State.raiseInDispatch_pc (c : Cause) (info : Word) : (s.raiseInDispatch c info).pc = s.faultPc := rfl

@[simp] theorem State.raiseInDispatch_regs (c : Cause) (info : Word) : (s.raiseInDispatch c info).regs = s.regs := rfl

@[simp] theorem State.raiseInDispatch_mem (c : Cause) (info : Word) : (s.raiseInDispatch c info).mem = s.mem := rfl

@[simp] theorem State.raiseInDispatch_status (c : Cause) (info : Word) : (s.raiseInDispatch c info).status = c.finalStatus := rfl

@[simp] theorem State.raiseInDispatch_fault (c : Cause) (info : Word) : (s.raiseInDispatch c info).fault = ⟨c, info⟩ := rfl

@[simp] theorem State.raiseInDispatch_trace (c : Cause) (info : Word) : (s.raiseInDispatch c info).trace = s.trace := rfl

@[simp] theorem State.raiseInDispatch_cfg (c : Cause) (info : Word) : (s.raiseInDispatch c info).cfg = s.cfg := rfl

/-! ### `hostWrite` -/

@[simp] theorem State.hostWrite_pc (a : Address) (bytes : List Byte) : (s.hostWrite a bytes).pc = s.pc := rfl

@[simp] theorem State.hostWrite_regs (a : Address) (bytes : List Byte) : (s.hostWrite a bytes).regs = s.regs := rfl

@[simp] theorem State.hostWrite_mem (a : Address) (bytes : List Byte) : (s.hostWrite a bytes).mem = s.mem.write a bytes := rfl

@[simp] theorem State.hostWrite_status (a : Address) (bytes : List Byte) : (s.hostWrite a bytes).status = s.status := rfl

@[simp] theorem State.hostWrite_fault (a : Address) (bytes : List Byte) : (s.hostWrite a bytes).fault = s.fault := rfl

@[simp] theorem State.hostWrite_trace (a : Address) (bytes : List Byte) : (s.hostWrite a bytes).trace = s.trace := rfl

@[simp] theorem State.hostWrite_cfg (a : Address) (bytes : List Byte) : (s.hostWrite a bytes).cfg = s.cfg := rfl

/-! ### `placeWord` -/

@[simp] theorem State.placeWord_pc (w : Word) : (s.placeWord w).pc = s.pc := rfl

@[simp] theorem State.placeWord_regs (w : Word) : (s.placeWord w).regs = s.regs := rfl

@[simp] theorem State.placeWord_mem (w : Word) : (s.placeWord w).mem = s.mem.write s.pc (bytesOfWord w) := rfl

@[simp] theorem State.placeWord_status (w : Word) : (s.placeWord w).status = s.status := rfl

@[simp] theorem State.placeWord_fault (w : Word) : (s.placeWord w).fault = s.fault := rfl

@[simp] theorem State.placeWord_trace (w : Word) : (s.placeWord w).trace = s.trace := rfl

@[simp] theorem State.placeWord_cfg (w : Word) : (s.placeWord w).cfg = s.cfg := rfl

/-! ### `attachSink` -/

@[simp] theorem State.attachSink_pc : (s.attachSink).pc = s.pc := rfl

@[simp] theorem State.attachSink_regs : (s.attachSink).regs = s.regs := rfl

@[simp] theorem State.attachSink_mem : (s.attachSink).mem = s.mem := rfl

@[simp] theorem State.attachSink_status : (s.attachSink).status = s.status := rfl

@[simp] theorem State.attachSink_fault : (s.attachSink).fault = s.fault := rfl

@[simp] theorem State.attachSink_trace : (s.attachSink).trace = s.trace := rfl

@[simp] theorem State.attachSink_cfg : (s.attachSink).cfg = { s.cfg with sinkAttached := true } := rfl

/-! ### Reads through the updates that leave the register file alone -/

@[simp] theorem State.readReg_withTrace (tr : List (List Byte)) (q : Reg) : (s.withTrace tr).readReg q = s.readReg q := rfl

@[simp] theorem State.readReg_withPc (a : Address) (q : Reg) : (s.withPc a).readReg q = s.readReg q := rfl

@[simp] theorem State.readReg_halt (q : Reg) : (s.halt).readReg q = s.readReg q := rfl

@[simp] theorem State.readReg_append (bytes : List Byte) (q : Reg) : (s.append bytes).readReg q = s.readReg q := rfl

@[simp] theorem State.readReg_raise (c : Cause) (info : Word) (q : Reg) : (s.raise c info).readReg q = s.readReg q := rfl

@[simp] theorem State.readReg_raiseInDispatch (c : Cause) (info : Word) (q : Reg) : (s.raiseInDispatch c info).readReg q = s.readReg q := rfl

@[simp] theorem State.readReg_hostWrite (a : Address) (bytes : List Byte) (q : Reg) : (s.hostWrite a bytes).readReg q = s.readReg q := rfl

@[simp] theorem State.readReg_placeWord (w : Word) (q : Reg) : (s.placeWord w).readReg q = s.readReg q := rfl

@[simp] theorem State.readReg_attachSink (q : Reg) : (s.attachSink).readReg q = s.readReg q := rfl

@[simp] theorem State.readReg_x0 : s.readReg .x0 = 0 := rfl

end Sys2Proof.Machine
end

