-- ==== Sys2Proof/Laws/Registers.lean ====
section
/-! SUPPORT. The laws of the register file. -/

namespace Sys2Proof.Machine

theorem number_injective {q r : Reg} (h : q.number = r.number) : q = r := by
  cases q <;> cases r <;> first | rfl | exact absurd h (by decide)

theorem regIndex_inj {q r : Reg} : regIndex q = regIndex r ↔ q = r := by
  constructor
  · intro h
    exact number_injective (BitVec.eq_of_toFin_eq h)
  · rintro rfl
    rfl

/-- Everything a register write can do to a register read: the register written reads the value, unless it is X0, and every
other register reads as before. -/
theorem State.readReg_writeReg (s : State) (r q : Reg) (v : Word) :
    (s.writeReg r v).readReg q = if q = r ∧ r ≠ .x0 then v else s.readReg q := by
  by_cases hq : q = .x0
  · subst hq
    by_cases hr : Reg.x0 = r
    · simp [State.readReg, ← hr]
    · simp [State.readReg, hr]
  · by_cases hqr : q = r
    · subst hqr
      simp [State.readReg, hq, storedValue]
    · have hne : (regIndex r).val ≠ (regIndex q).val := fun h => hqr (regIndex_inj.1 (Fin.ext h)).symm
      simp [State.readReg, hq, hqr, hne]

/-- A register write keeps X0's entry 0. -/
theorem State.zeroReg_writeReg (s : State) (h : s.regs[0] = 0) (r : Reg) (v : Word) :
    (s.writeReg r v).regs[0] = 0 := by
  by_cases hr : r = .x0
  · subst hr
    simp [storedValue, regIndex, Reg.number]
  · have hne : (regIndex r).val ≠ 0 := by
      intro h0
      exact hr (regIndex_inj.1 (Fin.ext (by simpa [regIndex, Reg.number] using h0)))
    simpa [Vector.getElem_set, hne] using h

end Sys2Proof.Machine
end

