-- ==== Sys2Proof/Laws/Steps.lean ====
section
/-! SUPPORT. One lemma for each shared operation that says everything it can do, up to the step and the run loop. Later proofs
cite these and do not unfold the operation. -/

namespace Sys2Proof.Machine

variable {s t : State}

/-! ### Addresses past the top -/

@[simp] theorem topFaults_eq_true_iff {c : Config} : Config.topFaults c = true ↔ c.addrOverflow = .fault := by
  unfold Config.topFaults
  cases c.addrOverflow <;> simp

theorem passesTop_eq_true_iff {a : Address} {n : Nat} : passesTop a n = true ↔ 0 < n ∧ 2 ^ 32 < a.toNat + n := by
  simp only [passesTop, Bool.and_eq_true, decide_eq_true_eq]
  omega

/-- A read fails exactly when it passes the top and that is a fault; else it gives the bytes. -/
theorem memRead_cases (s : State) (a : Address) (n : Nat) :
    (s.memRead a n = none ∧ passesTop a n = true ∧ s.cfg.addrOverflow = .fault) ∨
      (s.memRead a n = some (s.mem.read a n) ∧ ¬(passesTop a n = true ∧ s.cfg.addrOverflow = .fault)) := by
  unfold State.memRead
  split
  · rename_i h
    exact .inl ⟨rfl, by simpa using h⟩
  · rename_i h
    exact .inr ⟨rfl, by simpa using h⟩

/-- A fetch fails exactly when it passes the top and that is a fault; else it gives the big-endian word. -/
theorem fetchWord_cases (s : State) :
    (s.fetchWord = none ∧ 0xFFFFFFFC < s.pc.toNat ∧ s.cfg.addrOverflow = .fault) ∨
      (s.fetchWord = some (wordOfBytes (s.mem.get s.pc) (s.mem.get (s.pc + 1)) (s.mem.get (s.pc + 2))
          (s.mem.get (s.pc + 3))) ∧
        ¬(0xFFFFFFFC < s.pc.toNat ∧ s.cfg.addrOverflow = .fault)) := by
  unfold State.fetchWord
  split
  · rename_i h
    exact .inl ⟨rfl, by simpa using h⟩
  · rename_i h
    exact .inr ⟨rfl, by simpa using h⟩

/-- The advance fails exactly at the last word when that is a fault; else only `pc` changes. -/
theorem advancePc_cases (s : State) :
    (s.advancePc = none ∧ s.pc = 0xFFFFFFFC ∧ s.cfg.addrOverflow = .fault) ∨
      (s.advancePc = some (s.withPc (s.pc + 4)) ∧ ¬(s.pc = 0xFFFFFFFC ∧ s.cfg.addrOverflow = .fault)) := by
  unfold State.advancePc
  split
  · rename_i h
    exact .inl ⟨rfl, by simpa using h⟩
  · rename_i h
    exact .inr ⟨rfl, by simpa using h⟩

/-! ### The syscall and the instructions -/

/-- Everything the Write syscall can do, in the order of its checks. -/
theorem writeSyscall_cases (s : State) :
    (s.writeSyscall = s.raiseInDispatch .unsupportedFd (s.readReg s.cfg.sysFdReg) ∧
        s.readReg s.cfg.sysFdReg ≠ s.cfg.stdoutFd) ∨
      (s.writeSyscall = s.raiseInDispatch .addressOverflow (s.readReg s.cfg.sysBufReg) ∧
        s.readReg s.cfg.sysFdReg = s.cfg.stdoutFd ∧
        passesTop (s.readReg s.cfg.sysBufReg) (s.readReg s.cfg.sysLenReg).toNat = true ∧ s.cfg.addrOverflow = .fault) ∨
      (s.writeSyscall = s.output (s.mem.read (s.readReg s.cfg.sysBufReg) (s.readReg s.cfg.sysLenReg).toNat) ∧
        s.readReg s.cfg.sysFdReg = s.cfg.stdoutFd ∧
        ¬(passesTop (s.readReg s.cfg.sysBufReg) (s.readReg s.cfg.sysLenReg).toNat = true ∧
          s.cfg.addrOverflow = .fault)) := by
  by_cases hfd : s.readReg s.cfg.sysFdReg = s.cfg.stdoutFd
  · rcases memRead_cases s (s.readReg s.cfg.sysBufReg) (s.readReg s.cfg.sysLenReg).toNat with ⟨h, ht⟩ | ⟨h, ht⟩
    · exact .inr (.inl ⟨by simp only [State.writeSyscall, hfd, h, ne_eq, not_true_eq_false, if_false], hfd, ht⟩)
    · exact .inr (.inr ⟨by simp only [State.writeSyscall, hfd, h, ne_eq, not_true_eq_false, if_false], hfd, ht⟩)
  · exact .inl ⟨by simp only [State.writeSyscall, hfd, ne_eq, not_false_eq_true, if_true], hfd⟩

/-- `output` appends or does nothing. -/
theorem output_cases (s : State) (bytes : List Byte) :
    (s.output bytes = s.append bytes ∧ s.cfg.sinkAttached = true) ∨
      (s.output bytes = s ∧ s.cfg.sinkAttached = false) := by
  unfold State.output
  cases s.cfg.sinkAttached <;> simp

/-- Everything ECALL can do: it raises, or it is a Write. -/
theorem execEcall_cases (s : State) :
    (execEcall s = .next (s.raiseInDispatch .unknownSyscall (s.readReg s.cfg.sysNumReg)) ∧
        s.readReg s.cfg.sysNumReg ≠ syscallWrite) ∨
      (execEcall s = .next s.writeSyscall ∧ s.readReg s.cfg.sysNumReg = syscallWrite) := by
  by_cases h : s.readReg s.cfg.sysNumReg = syscallWrite
  · exact .inr ⟨by simp [execEcall, resolveSyscall, h], h⟩
  · exact .inl ⟨by simp [execEcall, resolveSyscall, h], h⟩

/-- What ECALL leaves alone and what it can change: at most one append, or one raise. -/
theorem execEcall_frame (h : execEcall s = .next t) :
    t.regs = s.regs ∧ t.mem = s.mem ∧ t.cfg = s.cfg ∧
      ((t.status = s.status ∧ t.fault = s.fault ∧ t.pc = s.pc ∧ (t.trace = s.trace ∨ ∃ bytes, t.trace = s.trace ++ [bytes])) ∨
        (∃ cause info, t = s.raiseInDispatch cause info ∧
          (cause = .unknownSyscall ∨ cause = .unsupportedFd ∨ cause = .addressOverflow))) := by
  rcases execEcall_cases s with ⟨he, -⟩ | ⟨he, -⟩ <;> rw [he] at h <;> cases h
  · exact ⟨rfl, rfl, rfl, .inr ⟨_, _, rfl, .inl rfl⟩⟩
  · rcases writeSyscall_cases s with ⟨hw, -⟩ | ⟨hw, -⟩ | ⟨hw, -⟩ <;> rw [hw]
    · exact ⟨rfl, rfl, rfl, .inr ⟨_, _, rfl, .inr (.inl rfl)⟩⟩
    · exact ⟨rfl, rfl, rfl, .inr ⟨_, _, rfl, .inr (.inr rfl)⟩⟩
    · rcases output_cases s (s.mem.read (s.readReg s.cfg.sysBufReg) (s.readReg s.cfg.sysLenReg).toNat) with
        ⟨ho, -⟩ | ⟨ho, -⟩ <;> rw [ho]
      · exact ⟨rfl, rfl, rfl, .inl ⟨rfl, rfl, rfl, .inr ⟨_, rfl⟩⟩⟩
      · exact ⟨rfl, rfl, rfl, .inl ⟨rfl, rfl, rfl, .inl rfl⟩⟩

/-- Every instruction gives a next state. -/
theorem exec_total (i : Instr) (s : State) : ∃ t, exec i s = .next t := by
  cases i with
  | li rd rs1 rs2 imm => exact ⟨_, rfl⟩
  | add rd rs1 rs2 imm => exact ⟨_, rfl⟩
  | ecall rd rs1 rs2 imm => rcases execEcall_cases s with ⟨h, -⟩ | ⟨h, -⟩ <;> exact ⟨_, h⟩
  | ebreak rd rs1 rs2 imm => exact ⟨_, rfl⟩

/-- Everything an instruction can do. -/
theorem exec_cases {i : Instr} (h : exec i s = .next t) :
    (∃ r v, t = s.writeReg r v) ∨ t = s.halt ∨
      (∃ cause info, t = s.raiseInDispatch cause info ∧
        (cause = .unknownSyscall ∨ cause = .unsupportedFd ∨ cause = .addressOverflow)) ∨
      (∃ bytes, t = s.append bytes) ∨ t = s := by
  cases i with
  | li rd rs1 rs2 imm => cases h; exact .inl ⟨_, _, rfl⟩
  | add rd rs1 rs2 imm => cases h; exact .inl ⟨_, _, rfl⟩
  | ebreak rd rs1 rs2 imm => cases h; exact .inr (.inl rfl)
  | ecall rd rs1 rs2 imm =>
    have h : execEcall s = .next t := h
    rcases execEcall_cases s with ⟨he, -⟩ | ⟨he, -⟩ <;> rw [he] at h <;> cases h
    · exact .inr (.inr (.inl ⟨_, _, rfl, .inl rfl⟩))
    · rcases writeSyscall_cases s with ⟨hw, -⟩ | ⟨hw, -⟩ | ⟨hw, -⟩ <;> rw [hw]
      · exact .inr (.inr (.inl ⟨_, _, rfl, .inr (.inl rfl)⟩))
      · exact .inr (.inr (.inl ⟨_, _, rfl, .inr (.inr rfl)⟩))
      · rcases output_cases s (s.mem.read (s.readReg s.cfg.sysBufReg) (s.readReg s.cfg.sysLenReg).toNat) with
          ⟨ho, -⟩ | ⟨ho, -⟩ <;> rw [ho]
        · exact .inr (.inr (.inr (.inl ⟨_, rfl⟩)))
        · exact .inr (.inr (.inr (.inr rfl)))

/-! ### The step -/

/-- The machine stops only where no step is defined. -/
theorem step_of_not_running (h : s.status ≠ .running) : step s = .fault (.notRunning s.status) := by
  unfold step sequencerStep
  cases hs : s.status <;> first | exact absurd hs h | rfl

/-- Everything a step can do (R101, R178): the status was RUNNING, and the step raised before the dispatch, leaving `pc`, or
ran an instruction with `pc` advanced. -/
theorem step_cases (h : step s = .next t) :
    s.status = .running ∧
      ((s.fetchWord = none ∧ t = s.raise .addressOverflow s.pc) ∨
        ∃ w, s.fetchWord = some w ∧
          ((∃ e, decode s.cfg w = .error e ∧ t = s.raise (decodeErrorCause e) (decodeErrorInfo e)) ∨
            ∃ i, decode s.cfg w = .ok i ∧
              ((s.advancePc = none ∧ t = s.raise .addressOverflow s.pc) ∨
                (s.advancePc = some (s.withPc (s.pc + 4)) ∧ exec i (s.withPc (s.pc + 4)) = .next t)))) := by
  by_cases hs : s.status = .running
  · refine ⟨hs, ?_⟩
    simp only [step, sequencerStep, hs] at h
    cases hf : s.fetchWord with
    | none => rw [hf] at h; cases h; exact .inl ⟨rfl, rfl⟩
    | some w =>
      simp only [hf, State.runWord] at h
      refine .inr ⟨w, rfl, ?_⟩
      cases hd : decode s.cfg w with
      | error e => rw [hd] at h; cases h; exact .inl ⟨e, rfl, rfl⟩
      | ok i =>
        simp only [hd, State.advanceAndDispatch] at h
        refine .inr ⟨i, rfl, ?_⟩
        rcases advancePc_cases s with ⟨ha, -⟩ | ⟨ha, -⟩ <;> rw [ha] at h
        · cases h; exact .inl ⟨ha, rfl⟩
        · exact .inr ⟨ha, h⟩
  · rw [step_of_not_running hs] at h
    cases h

/-- A RUNNING machine always has a next state. -/
theorem step_total (h : s.status = .running) : ∃ t, step s = .next t := by
  simp only [step, sequencerStep, h]
  cases s.fetchWord with
  | none => exact ⟨_, rfl⟩
  | some w =>
    simp only [State.runWord]
    cases decode s.cfg w with
    | error e => exact ⟨_, rfl⟩
    | ok i =>
      simp only [State.advanceAndDispatch]
      cases s.advancePc with
      | none => exact ⟨_, rfl⟩
      | some s' => exact exec_total i s'

/-! ### The run loop -/

@[simp] theorem runLoop_zero (s : State) : runLoop 0 s = s := rfl

theorem runLoop_succ (k : Nat) (h : step s = .next t) : runLoop (k + 1) s = runLoop k t := by
  simp [runLoop, h]

theorem runLoop_of_not_running (k : Nat) (h : s.status ≠ .running) : runLoop k s = s := by
  cases k with
  | zero => rfl
  | succ k => simp [runLoop, step_of_not_running h]

end Sys2Proof.Machine
end

