-- ==== Sys2Proof/Tests/Slice0.lean ====
section
/-! SUPPORT. The model's own tests, and the witnesses that the statements' hypotheses can be met. Expected values come from
spec/95_test_vectors.md (cited by id) or from the encoding tables. -/

namespace Sys2Proof.Tests

open Sys2Proof.Machine

/-! ### Helpers -/

/-- The reference configuration with changes that a test names. -/
def wrapping : Config := { Config.reference with addrOverflow := .wrap }

/-- A running machine at `pc` with the word `w` there, and registers written. -/
def machineAt (c : Config) (pc : Address) (w : Word) (writes : List (Reg × Word)) : State :=
  let s : State := { State.reset with pc := pc, cfg := c }
  writes.foldl (fun u p => u.writeReg p.1 p.2) (s.placeWord w)

/-- The state after one step, if there is one. -/
def after (s : State) : Option State :=
  match step s with
  | .next t => some t
  | .fault _ => none
  | .refused _ => none

/-- The registers of a Write of `len` bytes at `buf` on file descriptor `fd`. -/
def writeArgs (fd buf len : Word) : List (Reg × Word) := [(.a7, 64), (.a0, fd), (.a1, buf), (.a2, len)]

/-- A machine about to run ECALL at 0 with a sink attached and "hello" at 0x100 (V-SYS-1). -/
def hello (fd buf len : Word) : State :=
  ((machineAt Config.reference 0 3 (writeArgs fd buf len)).attachSink).hostWrite 0x100 [0x68, 0x65, 0x6C, 0x6C, 0x6F]

/-! ### Well-formedness: each check refuses an ill-formed term -/

theorem test_reference_is_admissible : Config.reference.wf = true := by decide

theorem test_wf_refuses_ecall_equal_li : Config.wf { Config.reference with opcEcall := 1 } = false := by decide
theorem test_wf_refuses_ecall_equal_add : Config.wf { Config.reference with opcEcall := 2 } = false := by decide
theorem test_wf_refuses_ebreak_equal_li : Config.wf { Config.reference with opcEbreak := 1 } = false := by decide
theorem test_wf_refuses_ebreak_equal_add : Config.wf { Config.reference with opcEbreak := 2 } = false := by decide
theorem test_wf_refuses_ecall_equal_ebreak : Config.wf { Config.reference with opcEcall := 4 } = false := by decide
theorem test_wf_refuses_narrow_carrier : Config.wf { Config.reference with immCarrierBits := 14 } = false := by decide

theorem test_instr_wf_refuses_shadowed_ecall :
    Instr.wf { Config.reference with opcEcall := 2 } (.ecall .x0 .x0 .x0 0) = false := by decide
theorem test_instr_wf_refuses_shadowed_ebreak :
    Instr.wf { Config.reference with opcEbreak := 3 } (.ebreak .x0 .x0 .x0 0) = false := by decide
theorem test_instr_wf_refuses_wide_immediate :
    Instr.wf { Config.reference with immCarrierBits := 8 } (.li .a0 .x0 .x0 256) = false := by decide

theorem test_memory_wf_refuses_unsorted : Memory.wf [(2, 1), (1, 1)] = false := by decide
theorem test_memory_wf_refuses_repeats : Memory.wf [(2, 1), (2, 1)] = false := by decide
theorem test_memory_wf_refuses_listed_zero : Memory.wf [(2, 0)] = false := by decide
theorem test_memory_wf_refuses_outside_addresses : Memory.wf [(2 ^ 32, 1)] = false := by decide

/-! ### Decoding: words written out field by field, imm rs2 rs1 rd opcode (R71) -/

theorem test_decode_li : decode Config.reference 0b000000000000010_0000_0000_0001_00001 = .ok (.li .a0 .x0 .x0 2) := by
  decide -- V-DEC-1
theorem test_decode_li_all_fields : decode Config.reference 0x0007FE81 = .ok (.li .a3 .x15 .x15 3) := by
  decide -- V-DEC-19
theorem test_decode_add : decode Config.reference 0b000000000000001_0011_0010_0001_00010 = .ok (.add .a0 .a1 .a2 1) := by
  decide -- V-DEC-21
theorem test_decode_add_rs1 : decode Config.reference 0x00001E02 = .ok (.add .x0 .x15 .x0 0) := by decide -- V-DEC-16
theorem test_decode_ecall : decode Config.reference 0xFFFFFFE3 = .ok (.ecall .x15 .x15 .x15 32767) := by
  decide -- V-DEC-10
theorem test_decode_ebreak : decode Config.reference 0b000000000000000_0000_0000_0000_00100 = .ok (.ebreak .x0 .x0 .x0 0) := by
  decide -- V-DEC-11
theorem test_decode_zero_word : decode Config.reference 0 = .error (.unknownOpcode 0) := by decide -- V-DEC-3
theorem test_decode_five : decode Config.reference 5 = .error (.unknownOpcode 5) := by decide -- V-DEC-5
theorem test_decode_opcode_checked_first : decode Config.reference 0xFFFFFFE0 = .error (.unknownOpcode 0) := by
  decide -- V-DEC-6
theorem test_decode_raw_value : decode Config.reference 0x12345678 = .error (.unknownOpcode 24) := by decide -- V-DEC-13
theorem test_decode_narrow_carrier :
    decode { Config.reference with immCarrierBits := 8 } 0x02000041 = .error (.immediateConversion 256) := by decide

theorem test_encode_li : encode Config.reference (.li .a7 .x0 .x0 64) = 0x00800101 := by decide -- P3
theorem test_encode_add : encode Config.reference (.add .a3 .a0 .a0 7) = 0x000E2282 := by decide -- P2

theorem test_table_words :
    decodeTableWord 32 1 = some (.li .x0 .x0 .x0 0) ∧ decodeTableWord 32 2 = some (.add .x0 .x0 .x0 0) ∧
      decodeTableWord 32 3 = some (.ecall .x0 .x0 .x0 0) ∧ decodeTableWord 32 4 = some (.ebreak .x0 .x0 .x0 0) ∧
      decodeTableWord 32 0 = none := by decide

theorem test_fetch_word_after_reset :
    (after (State.reset.withFetchWord 32 0x00040021)).map (fun t => (t.readReg .a0, t.pc, t.status)) =
      some (2, 4, .running) := by decide -- V-SEQ-1

/-! ### Memory and registers -/

theorem test_fetch_is_big_endian :
    (State.reset.hostWrite 0 [0x00, 0x04, 0x00, 0x21]).fetchWord = some 0x00040021 := by decide -- V-SEQ-2
theorem test_unwritten_byte_reads_zero : State.reset.mem.get 0x1234 = 0 := by decide -- V-MEM-1
theorem test_empty_read_at_the_top : State.reset.memRead 0xFFFFFFFF 0 = some [] := by decide -- V-MEM-3
theorem test_read_up_to_the_top : State.reset.memRead 0xFFFFFFFD 3 = some [0, 0, 0] := by decide -- V-MEM-5
theorem test_read_past_the_top : State.reset.memRead 0xFFFFFFFE 3 = none := by decide -- V-MEM-4
theorem test_read_wraps :
    (({ State.reset with cfg := wrapping } : State).hostWrite 0xFFFFFFFE [0xAA, 0xBB, 0xCC]).memRead 0xFFFFFFFE 3 =
      some [0xAA, 0xBB, 0xCC] := by decide -- V-MEM-4
theorem test_write_of_zero_is_not_listed : (State.reset.hostWrite 8 [7, 0, 9]).mem = [(8, 7), (10, 9)] := by decide
theorem test_x15_is_an_ordinary_register :
    (after (machineAt Config.reference 0 0x000201E1 [])).map (·.readReg .x15) = some 1 := by decide -- V-REG-4

/-! ### Instructions, one step each -/

theorem test_li_largest :
    (after (machineAt Config.reference 0 0xFFFE0021 [(.a0, 0xDEADBEEF)])).map (·.readReg .a0) = some 0x7FFF := by
  decide -- V-LI-2, V-LI-3
theorem test_li_x0_discarded :
    (after (machineAt Config.reference 0 0x00020001 [])).map (fun t => (t.readReg .x0, t.regs[0])) = some (0, 0) := by
  decide -- V-LI-5
theorem test_add_wraps :
    (after (machineAt Config.reference 0 0xFFFE6422 [(.a1, 0xFFFFFFFF), (.a2, 0xFFFFFFFF)])).map (·.readReg .a0) =
      some 0x7FFD := by decide -- V-ADD-4
theorem test_add_reads_before_writing :
    (after (machineAt Config.reference 0 0x00022222 [(.a0, 7)])).map (·.readReg .a0) = some 15 := by decide -- V-ADD-6
theorem test_ecall_appends_hello :
    (after (hello 1 0x100 5)).map (fun t => (t.trace, t.pc, t.status)) =
      some ([[0x68, 0x65, 0x6C, 0x6C, 0x6F]], 4, .running) := by decide -- V-SYS-1
theorem test_ecall_bad_fd_aborts :
    (after (hello 2 0x100 5)).map (fun t => (t.trace, t.pc, t.status, t.fault)) =
      some ([], 0, .aborted, ⟨.unsupportedFd, 2⟩) := by decide -- V-SYS-8
theorem test_ebreak_halts :
    (after (machineAt Config.reference 4 4 [])).map (fun t => (t.status, t.pc, t.fault)) =
      some (.halted, 8, ⟨.none, 0⟩) := by decide -- V-EBR-1, V-FLT-3
theorem test_ebreak_at_the_top :
    (after (machineAt Config.reference 0xFFFFFFFC 4 [])).map (fun t => (t.status, t.pc, t.fault)) =
      some (.faulted, 0xFFFFFFFC, ⟨.addressOverflow, 0xFFFFFFFC⟩) := by decide -- V-SEQ-5

/-! ### Exceptions and the order of the checks -/

theorem test_wrap_at_the_top :
    (after (machineAt wrapping 0xFFFFFFFC 4 [])).map (fun t => (t.status, t.pc)) = some (.halted, 0) := by
  decide -- V-SEQ-5
theorem test_decode_fault_before_advance_fault :
    (after (machineAt Config.reference 0xFFFFFFFC 0 [])).map (·.fault) = some ⟨.unknownOpcode, 0⟩ := by decide -- V-SEQ-6
theorem test_unknown_syscall_before_fd :
    (after (machineAt Config.reference 0 3 [(.a7, 63), (.a0, 2)])).map (fun t => (t.status, t.fault, t.pc)) =
      some (.faulted, ⟨.unknownSyscall, 63⟩, 0) := by decide -- V-SYS-13
theorem test_buffer_past_the_top :
    (after (hello 1 0xFFFFFFFE 3)).map (fun t => (t.status, t.fault, t.trace)) =
      some (.faulted, ⟨.addressOverflow, 0xFFFFFFFE⟩, []) := by decide -- V-SYS-12
theorem test_exec_fault_pc_next :
    (after (machineAt { Config.reference with pcOnExecFault := .next } 8 3 [])).map (fun t => (t.fault, t.pc)) =
      some (⟨.unknownSyscall, 0⟩, 12) := by decide -- V-SYS-4, P7 under `next`
theorem test_no_sink_discards :
    (after (machineAt Config.reference 0 3 (writeArgs 1 0 4))).map (fun t => (t.status, t.trace)) = some (.running, []) := by
  decide -- V-SYS-10
theorem test_empty_write_appends_once : (after (hello 1 0 0)).map (·.trace) = some [[]] := by decide -- V-SYS-2
theorem test_halted_never_steps : after { State.reset with status := .halted } = none := by decide -- V-SEQ-4

/-! ### Host, assembler, ports -/

theorem test_boot_and_assembler :
    (assembleAll Config.reference [.li .a0 2, .ebreak]).bind (fun image => (boot image false).map (·.mem)) =
      some [(1, 0x04), (3, 0x21), (7, 0x04)] := by decide -- P1
theorem test_assembler_refuses_wide_immediate : (AsmLine.li .a0 32768).assemble Config.reference = none := by decide -- R83
theorem test_load_ignored_after_run :
    (Session.create.handleAll [.run, .loadByte 0 1, .attachSink]).machine = State.reset := by decide -- R190
theorem test_sink_signals : (hello 1 0x100 2).sinkAppend = some [0x68, 0x65] := by decide -- R111
theorem test_decoder_port_error :
    decoderPort Config.reference 0x1F = ⟨false, none, 1, some 31⟩ := by decide -- V-DEC-20

/-! ### Witnesses: states and operands that meet the hypotheses of the statements -/

theorem witness_EncodeInvertsDecode :
    decode Config.reference 0x00006422 = .ok (.add .a0 .a1 .a2 0) := by decide
theorem witness_EveryWordDecodesOrIsUnknownOpcode : Config.reference.wf = true := test_reference_is_admissible
theorem witness_UnknownOpcodeExactlyForUndefinedValues :
    opcodeField 0xFFFFFFE0 = 0 ∧ opcodeField 0xFFFFFFE5 = 5 ∧ opcodeField 0xFFFFFFFF = 31 := by decide
theorem witness_ImmediateIsTheUnsignedField :
    (∃ w raw, decode { Config.reference with immCarrierBits := 14 } w = .error (.immediateConversion raw)) ∧
      decode Config.reference 0xFFFFFFE1 = .ok (.li .x15 .x15 .x15 32767) :=
  ⟨⟨0xFFFFFFE1, 32767, by decide⟩, by decide⟩
theorem witness_UnusedFieldsNeverMatter_ecall :
    State.reset.cfg.wf = true ∧ opcodeField 3 = opcodeField 0xFFFFFFE3 ∧ opcodeField 3 = State.reset.cfg.opcEcall := by decide
theorem witness_UnusedFieldsNeverMatter_ebreak :
    opcodeField 4 = opcodeField 0xFFFFFFE4 ∧ opcodeField 4 = State.reset.cfg.opcEbreak := by decide
theorem witness_UnusedFieldsNeverMatter_li :
    opcodeField 0x00060081 = opcodeField 0x0007FE81 ∧ opcodeField 0x00060081 = 1 ∧
      rdField 0x00060081 = rdField 0x0007FE81 ∧ immField 0x00060081 = immField 0x0007FE81 := by decide
theorem witness_DecoderPortShowsTheFieldsOrTheError :
    (decoderPort Config.reference 0x00006422).decOk = true ∧
      decode Config.reference 0 = .error (.unknownOpcode 0) := by decide

theorem witness_FetchIsBigEndian :
    (State.reset.withPc 0xFFFFFFFC).pc.toNat ≤ 0xFFFFFFFC ∧ 0xFFFFFFFC < (State.reset.withPc 0xFFFFFFFD).pc.toNat ∧
      (State.reset.withPc 0xFFFFFFFD).cfg.addrOverflow = .fault ∧ (machineAt wrapping 0xFFFFFFFD 4 []).cfg.addrOverflow = .wrap := by
  decide
theorem witness_FetchIsBigEndian_reached : Reaches (Session.create.handleAll [.run]).machine State.reset := .refl _
theorem witness_MemReadGivesTheBytesOrOverflows :
    0xFFFFFFFF < (0xFFFFFFFE : Address).toNat + (3 - 1) ∧ State.reset.cfg.addrOverflow = .fault ∧
      (0xFFFFFFFD : Address).toNat + (3 - 1) ≤ 0xFFFFFFFF := by decide
theorem witness_MemReadGivesTheBytesOrOverflows_ecall :
    (hello 1 0xFFFFFFFE 3).memRead 0xFFFFFFFE 3 = none ∧ (hello 1 0xFFFFFFFE 3).readReg .a7 = 64 ∧
      (hello 1 0xFFFFFFFE 3).readReg .a0 = 1 ∧ (hello 1 0xFFFFFFFE 3).readReg .a1 = 0xFFFFFFFE ∧
      ((hello 1 0xFFFFFFFE 3).readReg .a2).toNat = 3 := by decide
theorem witness_CanonicalMemoriesThatReadAlikeAreEqual :
    Memory.wf (Memory.set [(1, 7)] 5 9) = true ∧ Memory.wf [(1, 7), (5, 9)] = true ∧
      ∀ a : Address, (Memory.set [(1, 7)] 5 9).get a = Memory.get [(1, 7), (5, 9)] a :=
  ⟨by decide, by decide, fun _ => rfl⟩
theorem witness_MemWriteStoresExactlyItsBytes :
    Memory.wf [(1, 7)] = true ∧ (0xFFFFFFFE : Address).toNat + [(1 : Byte), 2].length ≤ 2 ^ 32 := by decide
theorem witness_BootLoadsTheImageAtZero :
    [(1 : Byte), 2].length ≤ 2 ^ 32 ∧ 4 * [(3 : Word)].length ≤ 2 ^ 32 := by decide

/-- A word about to be run meets the hypotheses of the statements about a fetched word: at 0, at the last word but one, and at
the last word where addresses wrap. -/
theorem witness_running_word (w : Word) :
    (machineAt Config.reference 0 w []).status = .running ∧ (machineAt Config.reference 0 w []).cfg.wf = true ∧
      (machineAt Config.reference 0 w []).CanAdvance ∧ (machineAt Config.reference 0xFFFFFFF8 w []).CanAdvance ∧
      (machineAt wrapping 0xFFFFFFFC w []).CanAdvance ∧ ¬ (machineAt Config.reference 0xFFFFFFFC w []).CanAdvance := by
  refine ⟨rfl, test_reference_is_admissible, .inl ?_, .inl ?_, .inr rfl, ?_⟩
  · show (0 : Address) ≠ 0xFFFFFFFC
    decide
  · show (0xFFFFFFF8 : Address) ≠ 0xFFFFFFFC
    decide
  · rintro (h | h)
    · exact h rfl
    · cases h
theorem witness_LiWordLoadsItsImmediate :
    (machineAt Config.reference 0 0x00040021 []).fetchWord = some 0x00040021 ∧
      (0x00040021 : Word).toNat % 2 ^ 5 = 1 := by decide
theorem witness_AddWordWritesTheWrappingSum :
    (machineAt Config.reference 0 0x00006422 []).fetchWord = some 0x00006422 ∧ (0x00006422 : Word).toNat % 2 ^ 5 = 2 ∧
      Reg.a1.number.toNat = (0x00006422 : Word).toNat / 2 ^ 9 % 2 ^ 4 ∧
      Reg.a2.number.toNat = (0x00006422 : Word).toNat / 2 ^ 13 % 2 ^ 4 := by decide
theorem witness_SyscallTableKnowsOnlyWrite : (64 : Word).toNat = 64 ∧ (0x10000040 : Word).toNat ≠ 64 ∧
    (machineAt Config.reference 0 3 [(.a7, 0x10000040)]).readReg Config.reference.sysNumReg = 0x10000040 := by decide
theorem witness_EcallWriteCompletesWithOneAppend :
    (hello 1 0x100 5).readReg (hello 1 0x100 5).cfg.sysNumReg = 64 ∧
      (hello 1 0x100 5).readReg (hello 1 0x100 5).cfg.sysFdReg = (hello 1 0x100 5).cfg.stdoutFd ∧
      ((hello 1 0x100 5).readReg .a1).toNat + ((hello 1 0x100 5).readReg .a2).toNat ≤ 2 ^ 32 ∧
      (hello 1 0x100 5).cfg.sinkAttached = true := by decide
theorem witness_EcallWriteCompletes_no_sink :
    (machineAt Config.reference 0 3 (writeArgs 1 0xFFFFFFFE 2)).cfg.sinkAttached = false ∧
      ((machineAt Config.reference 0 3 (writeArgs 1 0xFFFFFFFE 2)).readReg .a1).toNat +
        ((machineAt Config.reference 0 3 (writeArgs 1 0xFFFFFFFE 2)).readReg .a2).toNat = 2 ^ 32 := by decide
theorem witness_EcallWriteCompletes_empty_or_wrapping :
    (hello 1 0xFFFFFFFF 0).readReg (hello 1 0xFFFFFFFF 0).cfg.sysLenReg = 0 ∧
      (machineAt wrapping 0 3 (writeArgs 1 0xFFFFFFFE 3)).cfg.addrOverflow = .wrap ∧
      (after (machineAt wrapping 0 3 (writeArgs 1 0xFFFFFFFE 3))).map State.failed = some false := by decide
theorem witness_EbreakWordHaltsPastItself :
    (machineAt Config.reference 0 4 []).fetchWord = some 4 ∧
      opcodeField 4 = (machineAt Config.reference 0 4 []).cfg.opcEbreak := by decide
theorem witness_StepRunsTheDecodedInstruction :
    (machineAt Config.reference 0xFFFFFFFC 4 []).status = .running ∧
      (machineAt Config.reference 0xFFFFFFFC 4 []).pc.toNat ≤ 0xFFFFFFFC ∧
      decodeBytes Config.reference ((machineAt Config.reference 0xFFFFFFFC 4 []).mem.get 0xFFFFFFFC)
        ((machineAt Config.reference 0xFFFFFFFC 4 []).mem.get 0xFFFFFFFD)
        ((machineAt Config.reference 0xFFFFFFFC 4 []).mem.get 0xFFFFFFFE)
        ((machineAt Config.reference 0xFFFFFFFC 4 []).mem.get 0xFFFFFFFF) = .ok (.ebreak .x0 .x0 .x0 0) := by decide
theorem witness_DecodedInstructionsAdvanceThePc :
    (machineAt Config.reference 0xFFFFFFFC 4 []).fetchWord = some 4 ∧
      decode Config.reference 4 = .ok (.ebreak .x0 .x0 .x0 0) ∧
      (after (machineAt Config.reference 0xFFFFFFF8 4 [])).map State.failed = some false := by decide
theorem witness_FirstFailingCheckDecidesTheException :
    (hello 1 0x100 5).status = .running ∧ (hello 1 0x100 5).cfg.wf = true := by decide
/-- One machine for each clause, at the values where the clauses meet. -/
theorem witness_FirstFailingCheck_clauses :
    (after (State.reset.withPc 0xFFFFFFFD)).map (·.fault) = some ⟨.addressOverflow, 0xFFFFFFFD⟩ ∧
      (after (machineAt Config.reference 0xFFFFFFFC 0 [])).map (·.fault) = some ⟨.unknownOpcode, 0⟩ ∧
      (after (machineAt Config.reference 0xFFFFFFFC 3 [])).map (·.fault) = some ⟨.addressOverflow, 0xFFFFFFFC⟩ ∧
      (after (machineAt Config.reference 0xFFFFFFF8 3 [(.a7, 65)])).map (·.fault) = some ⟨.unknownSyscall, 65⟩ ∧
      (after (hello 0 0xFFFFFFFE 3)).map (·.fault) = some ⟨.unsupportedFd, 0⟩ ∧
      (after (hello 1 0xFFFFFFFE 3)).map (·.fault) = some ⟨.addressOverflow, 0xFFFFFFFE⟩ ∧
      (after (hello 1 0xFFFFFFFE 2)).map (·.fault) = some ⟨.none, 0⟩ := by decide

/-- A step that fails, and one that does not: the hypotheses `step s = .next t` with and without `t.failed`. -/
theorem witness_failing_step : ∃ t, step (hello 2 0x100 5) = .next t ∧ t.failed = true := ⟨_, rfl, rfl⟩
theorem witness_failing_step_before_dispatch :
    ∃ t, step State.reset = .next t ∧ t.failed = true ∧ State.reset.fetchWord = some 0 ∧
      decode State.reset.cfg 0 = .error (.unknownOpcode 0) := ⟨_, rfl, rfl, by decide, by decide⟩
theorem witness_failing_step_in_dispatch :
    (hello 2 0x100 5).fetchWord = some 3 ∧ decode (hello 2 0x100 5).cfg 3 = .ok (.ecall .x0 .x0 .x0 0) ∧
      (hello 2 0x100 5).CanAdvance ∧ (hello 2 0x100 5).cfg.pcOnExecFault = .faulting := by
  refine ⟨by decide, by decide, .inl ?_, rfl⟩
  show (0 : Address) ≠ 0xFFFFFFFC
  decide
theorem witness_failing_step_pc_next :
    (after (machineAt { Config.reference with pcOnExecFault := .next } 8 3 [])).map State.failed = some true := by decide
theorem witness_AddressOverflowInThreeCasesOnly :
    State.reset.fault.cause = .none ∧ (after (State.reset.withPc 0xFFFFFFFD)).map (·.fault) =
      some ⟨.addressOverflow, 0xFFFFFFFD⟩ := by decide
theorem witness_ended_state : (State.reset.halt).status ≠ .running ∧ State.reset.status = .running ∧
    ((State.reset.raise .unknownOpcode 0).failed = true) := by decide
theorem witness_appending_step : ∃ t, step (hello 1 0x100 5) = .next t ∧ t.trace = [[0x68, 0x65, 0x6C, 0x6C, 0x6F]] :=
  ⟨_, rfl, by decide⟩
theorem witness_ParametersAreFixed_no_sink : State.reset.cfg.sinkAttached = false := rfl
theorem witness_ControlFlowIsSequential :
    (runLoop 1 (machineAt Config.reference 0 0x00040021 [])).status = .running := by decide
theorem witness_EveryRunEndsUnderFault : State.reset.cfg.addrOverflow = .fault ∧ 2 ^ 30 ≤ 2 ^ 30 := by decide
theorem witness_UnwrittenMemoryFaultsAsUnknownOpcode :
    State.reset.status = .running ∧ State.reset.pc.toNat ≤ 0xFFFFFFFC ∧ State.reset.cfg.opcEcall ≠ 0 ∧
      State.reset.cfg.opcEbreak ≠ 0 ∧ ∀ i : Nat, i < 4 → State.reset.mem.get (State.reset.pc + BitVec.ofNat 32 i) = 0 :=
  ⟨rfl, by decide, by decide, by decide, fun _ _ => rfl⟩

/-- An invariant state that steps: the hypotheses of the statements about `State.Inv`. -/
theorem witness_invariant_step : (State.reset.withFetchWord 32 0x00040021).Inv ∧
    ∃ t, step (State.reset.withFetchWord 32 0x00040021) = .next t := by
  refine ⟨⟨by decide, rfl, rfl, ⟨by decide, by decide⟩, rfl, by decide⟩, ⟨_, rfl⟩⟩
theorem witness_SessionsKeepTheInvariant : Reaches (Session.create.handleAll [.loadByte 3 4, .run]).machine
    (Session.create.handleAll [.loadByte 3 4, .run]).machine := .refl _
theorem witness_NothingChangesMemoryOnceTheRunStarts : (Session.create.handle .run).started = true := rfl
theorem witness_InspectionSeesTheFrozenState :
    (Session.create.handleAll [.loadByte 3 4, .run, .coreStep]).ended = true ∧ Session.create.ended = false := by decide
theorem witness_LongerRunsExtendTheTrace : (1 : Nat) ≤ 2 := by decide

end Sys2Proof.Tests
end

