-- ==== Sys2Proof/Proofs/RegisterReads.lean ====
section
/-! PROOFS. What a register reads after a list of writes, and after reset (spec/10_state.md R23). -/

namespace Sys2Proof.Machine

/-- A register other than X0 reads the last value a list of writes gives it. The induction takes the last write off the end:
it either decides the read, or leaves the read and the writes to `q` as they were. -/
theorem State.readReg_foldl_writeReg (s : State) {q : Reg} (hq : q ≠ .x0) (writes : List (Reg × Word)) :
    (writes.foldl (fun u p => u.writeReg p.1 p.2) s).readReg q =
      (((writes.filter fun p => p.1 = q).getLast?).map Prod.snd).getD (s.readReg q) := by
  induction writes using List.reverseRecOn with
  | nil => rfl
  | append_singleton ws w ih =>
    rw [List.foldl_concat, State.readReg_writeReg, List.filter_append]
    by_cases hw : w.1 = q
    · rw [if_pos ⟨hw.symm, hw ▸ hq⟩]
      simp [hw]
    · rw [if_neg fun h => hw h.1.symm, ih]
      simp [hw]

/-- Every register reads 0 after reset (R200). -/
@[simp] theorem State.readReg_reset (q : Reg) : State.reset.readReg q = 0 := by
  by_cases hq : q = .x0
  · rw [hq, State.readReg_x0]
  · simp [State.readReg, State.reset]

/-- Settles O17: X0 by its read rule, every other register by induction on the writes from the last one back. -/
theorem registersReadTheLastValueWritten : Obligations.RegistersReadTheLastValueWritten := by
  unfold Obligations.RegistersReadTheLastValueWritten
  refine ⟨fun writes s q => ?_, State.readReg_reset⟩
  by_cases hq : q = .x0
  · rw [if_pos hq, hq, State.readReg_x0]
  · rw [if_neg hq]
    exact State.readReg_foldl_writeReg s hq writes

end Sys2Proof.Machine
end

/-! PROOFS. What a run leaves of memory, what a `MemRead` gives, and the big-endian fetch with the addresses it can be asked
for (spec/20_memory.md R52, R54, R55). -/

namespace Sys2Proof.Machine

variable {s t : State}

/-! ### Memory is constant -/

/-- No instruction writes memory (R54, R58). -/
theorem exec_mem {i : Instr} (h : exec i s = .next t) : t.mem = s.mem := by
  rcases exec_cases h with ⟨r, v, rfl⟩ | rfl | ⟨cause, info, rfl, -⟩ | ⟨bytes, rfl⟩ | rfl <;> rfl

/-- No step writes memory: not a raise before the dispatch, not the advance, and no instruction (R54). -/
theorem step_mem (h : step s = .next t) : t.mem = s.mem := by
  obtain ⟨-, ⟨-, rfl⟩ | ⟨w, -, ⟨e, -, rfl⟩ | ⟨i, -, ⟨-, rfl⟩ | ⟨-, hexec⟩⟩⟩⟩ := step_cases h
  · rfl
  · rfl
  · rfl
  · rw [exec_mem hexec, State.withPc_mem]

theorem runLoop_mem (k : Nat) (s : State) : (runLoop k s).mem = s.mem := by
  induction k generalizing s with
  | zero => rfl
  | succ k ih =>
    by_cases hs : s.status = .running
    · obtain ⟨t, ht⟩ := step_total hs
      rw [runLoop_succ k ht, ih, step_mem ht]
    · rw [runLoop_of_not_running _ hs]

/-- Settles O16: no step writes memory, by induction on the number of steps. -/
theorem memoryIsConstantDuringARun : Obligations.MemoryIsConstantDuringARun := by
  unfold Obligations.MemoryIsConstantDuringARun
  exact fun k s => ⟨runLoop_mem k s, fun a => by rw [runLoop_mem]⟩

/-! ### Reading memory -/

/-- A read fails exactly where its range passes the top under `fault` (R52). -/
theorem memRead_eq_none_iff {a : Address} {n : Nat} :
    s.memRead a n = none ↔ passesTop a n = true ∧ s.cfg.addrOverflow = .fault := by
  rcases memRead_cases s a n with ⟨h, htop⟩ | ⟨h, htop⟩
  · exact iff_of_true h htop
  · exact iff_of_false (by simp [h]) htop

theorem memRead_eq_some {a : Address} {n : Nat} (h : ¬(passesTop a n = true ∧ s.cfg.addrOverflow = .fault)) :
    s.memRead a n = some (s.mem.read a n) := by
  rcases memRead_cases s a n with ⟨-, htop⟩ | ⟨hread, -⟩
  · exact absurd htop h
  · exact hread

/-- The address `i` past `a` is their true sum modulo 2^32. -/
theorem address_add_ofNat (a : Address) (i : Nat) :
    a + BitVec.ofNat 32 i = BitVec.ofNat 32 ((a.toNat + i) % 2 ^ 32) := by
  apply BitVec.eq_of_toNat_eq
  simp

/-- An ECALL whose Write cannot read its buffer raises AddressOverflow with the buffer's address (R146, R177). -/
theorem execEcall_of_memRead_eq_none (hnum : s.readReg s.cfg.sysNumReg = syscallWrite)
    (hfd : s.readReg s.cfg.sysFdReg = s.cfg.stdoutFd)
    (hread : s.memRead (s.readReg s.cfg.sysBufReg) (s.readReg s.cfg.sysLenReg).toNat = none) :
    execEcall s = .next (s.raiseInDispatch .addressOverflow (s.readReg s.cfg.sysBufReg)) := by
  rcases execEcall_cases s with ⟨-, hne⟩ | ⟨he, -⟩
  · exact absurd hnum hne
  · rcases writeSyscall_cases s with ⟨-, hne⟩ | ⟨hw, -⟩ | ⟨-, -, htop⟩
    · exact absurd hfd hne
    · rw [he, hw]
    · exact absurd (memRead_eq_none_iff.1 hread) htop

/-- Settles O12: the two range clauses by the test a read makes of its range, the bytes by `Memory.read`'s own laws, and the
raise by ECALL's order of checks. -/
theorem memReadGivesTheBytesOrOverflows : Obligations.MemReadGivesTheBytesOrOverflows := by
  unfold Obligations.MemReadGivesTheBytesOrOverflows
  intro s a n
  refine ⟨fun ⟨hpast, hpos, hfault⟩ => ?_, fun hfits => ?_, fun hread hnum hfd hbuf hlen rd rs1 rs2 imm => ?_⟩
  · exact memRead_eq_none_iff.2 ⟨passesTop_eq_true_iff.2 ⟨hpos, by omega⟩, hfault⟩
  · have hsafe : ¬(passesTop a n = true ∧ s.cfg.addrOverflow = .fault) := by
      rintro ⟨htop, hfault⟩
      obtain ⟨hpos, hpast⟩ := passesTop_eq_true_iff.1 htop
      rcases hfits with hle | hzero | hwrap
      · omega
      · omega
      · exact absurd (hfault.symm.trans hwrap) (by decide)
    refine ⟨s.mem.read a n, memRead_eq_some hsafe, Memory.length_read .., fun i h => ?_⟩
    rw [Memory.getElem_read, address_add_ofNat]
  · subst hbuf hlen
    exact execEcall_of_memRead_eq_none hnum hfd hread

/-! ### The pc of a reached state -/

/-- An instruction leaves `pc`, or takes it back to its own address when it raises (R108). -/
theorem exec_pc {i : Instr} (h : exec i s = .next t) : t.pc = s.pc ∨ t.pc = s.pc - 4 := by
  rcases exec_cases h with ⟨r, v, rfl⟩ | rfl | ⟨cause, info, rfl, -⟩ | ⟨bytes, rfl⟩ | rfl
  case inr.inr.inl =>
    rw [State.raiseInDispatch_pc, State.faultPc]
    cases s.cfg.pcOnExecFault with
    | faulting => exact .inr rfl
    | next => exact .inl rfl
  all_goals exact .inl rfl

/-- A step leaves `pc` or advances it by one word (R103, R108). -/
theorem step_pc (h : step s = .next t) : t.pc = s.pc ∨ t.pc = s.pc + 4 := by
  obtain ⟨-, ⟨-, rfl⟩ | ⟨w, -, ⟨e, -, rfl⟩ | ⟨i, -, ⟨-, rfl⟩ | ⟨-, hexec⟩⟩⟩⟩ := step_cases h
  · exact .inl rfl
  · exact .inl rfl
  · exact .inl rfl
  · rcases exec_pc hexec with hpc | hpc
    · exact .inr hpc
    · exact .inl (by rw [hpc, State.withPc_pc, BitVec.add_sub_cancel])

theorem step_pcAligned (h : step s = .next t) (hs : s.PcAligned) : t.PcAligned := by
  unfold State.PcAligned at *
  rcases step_pc h with hpc | hpc <;> rw [hpc]
  · exact hs
  · rw [BitVec.toNat_add, show (4 : Address).toNat = 4 from rfl]
    omega

/-- The last aligned address is that of the last word. -/
theorem State.PcAligned.pc_le (h : s.PcAligned) : s.pc.toNat ≤ 0xFFFFFFFC := by
  unfold State.PcAligned at h
  omega

/-- Everything an event can do to the machine: nothing, a load of one byte, an attachment, or a step (R190). -/
theorem Session.handle_machine_cases (x : Session) (e : Event) :
    (x.handle e).machine = x.machine ∨ (∃ a b, (x.handle e).machine = x.machine.hostWrite a [b]) ∨
      (x.handle e).machine = x.machine.attachSink ∨ step x.machine = .next (x.handle e).machine := by
  cases e with
  | loadByte a b =>
    simp only [Session.handle]
    split
    · exact .inl rfl
    · exact .inr (.inl ⟨a, b, rfl⟩)
  | attachSink =>
    simp only [Session.handle]
    split
    · exact .inl rfl
    · exact .inr (.inr (.inl rfl))
  | run => exact .inl rfl
  | coreStep =>
    simp only [Session.handle, Session.advance]
    split
    · rename_i hstep
      exact .inr (.inr (.inr hstep))
    · exact .inl rfl

/-- What every step keeps holds of every state reached from one where it holds. -/
theorem reached_of_step {P : State → Prop} (hstep : ∀ {s t}, step s = .next t → P s → P t) (h : Reaches s t)
    (hs : P s) : P t := by
  induction h with
  | refl => exact hs
  | step _ hnext ih => exact hstep hnext ih

/-- What holds after reset and is kept by a load, an attachment and a step holds of every state reached from a created machine,
whatever the host and the core did before. -/
theorem reached_of_created {P : State → Prop} (hreset : P State.reset)
    (hload : ∀ {s} a b, P s → P (s.hostWrite a [b])) (hattach : ∀ {s}, P s → P s.attachSink)
    (hstep : ∀ {s t}, step s = .next t → P s → P t) {events : List Event}
    (h : Reaches (Session.create.handleAll events).machine t) : P t := by
  refine reached_of_step hstep h ?_
  clear h
  induction events using List.reverseRecOn with
  | nil => exact hreset
  | append_singleton es e ih =>
    rw [Session.handleAll, List.foldl_concat]
    rcases Session.handle_machine_cases (Session.create.handleAll es) e with h | ⟨a, b, h⟩ | h | h
    · exact h ▸ ih
    · exact h ▸ hload a b ih
    · exact h ▸ hattach ih
    · exact hstep h ih

theorem pcAligned_of_created {events : List Event} (h : Reaches (Session.create.handleAll events).machine t) :
    t.PcAligned :=
  reached_of_created (P := State.PcAligned) rfl (fun _ _ hs => hs) (fun hs => hs) step_pcAligned h

/-! ### The fetch -/

/-- A byte moved up by `k` bits of a Word loses none of its bits. -/
theorem toNat_byte_shiftLeft (b : Byte) {k : Nat} (hk : k ≤ 24) : (b.setWidth 32 <<< k).toNat = b.toNat <<< k := by
  rw [BitVec.toNat_shiftLeft, BitVec.toNat_setWidth_of_le (by decide), Nat.mod_eq_of_lt]
  calc b.toNat <<< k = b.toNat * 2 ^ k := Nat.shiftLeft_eq ..
    _ < 2 ^ 8 * 2 ^ 24 := Nat.mul_lt_mul_of_lt_of_le b.isLt (Nat.pow_le_pow_right (by decide) hk) (by decide)

/-- The word of four bytes is the big-endian number they write (R55): the bytes lie apart, so each `|||` is a sum. -/
theorem wordOfBytes_toNat (b0 b1 b2 b3 : Byte) :
    (wordOfBytes b0 b1 b2 b3).toNat = b0.toNat * 2 ^ 24 + b1.toNat * 2 ^ 16 + b2.toNat * 2 ^ 8 + b3.toNat := by
  have low1 : b3.toNat < 2 ^ 8 := b3.isLt
  have low2 : b2.toNat <<< 8 + b3.toNat < 2 ^ 16 := by omega
  have low3 : b1.toNat <<< 16 + (b2.toNat <<< 8 + b3.toNat) < 2 ^ 24 := by omega
  simp only [wordOfBytes, BitVec.toNat_or, toNat_byte_shiftLeft _ (Nat.le_refl 24), Nat.or_assoc,
    toNat_byte_shiftLeft _ (show 16 ≤ 24 by decide), toNat_byte_shiftLeft _ (show 8 ≤ 24 by decide),
    BitVec.toNat_setWidth_of_le (show 8 ≤ 32 by decide)]
  rw [← Nat.shiftLeft_add_eq_or_of_lt low1, ← Nat.shiftLeft_add_eq_or_of_lt low2,
    ← Nat.shiftLeft_add_eq_or_of_lt low3]
  omega

/-- A fetch gives no word exactly where it passes the top under `fault` (R55). -/
theorem fetchWord_eq_none_iff :
    s.fetchWord = none ↔ 0xFFFFFFFC < s.pc.toNat ∧ s.cfg.addrOverflow = .fault := by
  rcases fetchWord_cases s with ⟨h, htop⟩ | ⟨h, htop⟩
  · exact iff_of_true h htop
  · exact iff_of_false (by simp [h]) htop

/-- Settles O11: the fetched word by its value as a number, and the range of `pc` because it stays a multiple of 4. -/
theorem fetchIsBigEndian : Obligations.FetchIsBigEndian := by
  unfold Obligations.FetchIsBigEndian
  refine ⟨fun s => ⟨fun hfits => ?_, fun hpast hfault => fetchWord_eq_none_iff.2 ⟨hpast, hfault⟩⟩,
    fun events t h => (pcAligned_of_created h).pc_le⟩
  rcases fetchWord_cases s with ⟨-, hpast, hfault⟩ | ⟨hword, -⟩
  · rcases hfits with hle | hwrap
    · omega
    · exact absurd (hfault.symm.trans hwrap) (by decide)
  · exact ⟨_, hword, wordOfBytes_toNat ..⟩

end Sys2Proof.Machine

/-! PROOFS. The fields of a word as numbers, the register and the immediate they name, the decoder block, and the
pseudo-instructions (spec/30_encoding.md R72, R75, R76, R81, R84). -/

namespace Sys2Proof.Machine

variable {c : Config} {w : Word}

/-! ### The fields as numbers -/

/-- The `n` bits of a word from bit `k` up, as a number. -/
theorem extractLsb'_toNat_eq_div_mod (w : Word) (k n : Nat) : (w.extractLsb' k n).toNat = w.toNat / 2 ^ k % 2 ^ n := by
  rw [BitVec.extractLsb'_toNat, Nat.shiftRight_eq_div_pow]

/-- The immediate field reaches the top of the word, so no bit is cut off above it. -/
theorem immField_toNat (w : Word) : (immField w).toNat = w.toNat / 2 ^ 17 := by
  have hw : w.toNat < 2 ^ 32 := w.isLt
  rw [immField, extractLsb'_toNat_eq_div_mod, Nat.mod_eq_of_lt (by omega)]

/-- Settles O1: each field is a bit range; the opcode's starts at bit 0, and the immediate's ends at the top. -/
theorem fieldsOfAWordAreItsBitRanges : Obligations.FieldsOfAWordAreItsBitRanges := by
  unfold Obligations.FieldsOfAWordAreItsBitRanges
  refine fun w => ⟨?_, extractLsb'_toNat_eq_div_mod w 5 4, extractLsb'_toNat_eq_div_mod w 9 4,
    extractLsb'_toNat_eq_div_mod w 13 4, immField_toNat w⟩
  rw [opcodeField, extractLsb'_toNat_eq_div_mod, Nat.pow_zero, Nat.div_one]

/-! ### The registers -/

/-- Settles O5: the map's bijection, and what the decoder's two answers say of the register fields. -/
theorem noRegisterFieldIsRejected : Obligations.NoRegisterFieldIsRejected := by
  unfold Obligations.NoRegisterFieldIsRejected
  refine ⟨fun f => ?_, fun c w raw h => ?_, fun c w i h => ?_⟩
  · obtain ⟨r, hr, rfl⟩ := registerOfField_eq_some f
    exact ⟨r, hr, fun q => ⟨number_injective, congrArg Reg.number⟩⟩
  · rcases decode_eq_error h with ⟨he, -⟩ | ⟨he, -⟩
    · cases he
    · cases he
  · obtain ⟨-, hrd, hrs1, hrs2, -⟩ := decode_eq_ok_iff.1 h
    exact ⟨hrd, hrs1, hrs2⟩

/-! ### The immediate -/

/-- A Word has room for all 15 bits of an immediate. -/
theorem immWord_toNat (imm : BitVec 15) : (immWord imm).toNat = imm.toNat :=
  BitVec.toNat_setWidth_of_le (by decide)

/-- An immediate that does not convert is too large for its carrier, and every immediate is below `2 ^ 15` (R76). -/
theorem carrier_narrow_of_immediateConversion {raw : BitVec 15}
    (h : decode c w = .error (.immediateConversion raw)) : c.immCarrierBits < 15 := by
  rcases decode_eq_error h with ⟨he, -⟩ | ⟨-, -, hlarge⟩
  · cases he
  · exact (Nat.pow_lt_pow_iff_right (by decide)).1 (hlarge.trans_lt (immField w).isLt)

/-- Settles O6: a conversion that fails needs a narrow carrier, and the immediate is the word's top 15 bits as a number. -/
theorem immediateIsTheUnsignedField : Obligations.ImmediateIsTheUnsignedField := by
  unfold Obligations.ImmediateIsTheUnsignedField
  refine ⟨fun c ⟨w, raw, h⟩ => carrier_narrow_of_immediateConversion h, fun c w i h => ?_⟩
  obtain ⟨-, -, -, -, himm, -⟩ := decode_eq_ok_iff.1 h
  have hw : w.toNat < 2 ^ 32 := w.isLt
  exact ⟨himm, by rw [immWord_toNat, himm, immField_toNat], by omega⟩

/-! ### The decoder block -/

/-- The opcode that a value selects has that value (R73). -/
theorem opcodeValue_of_selectOpcode {v : BitVec 5} {op : Opcode} (h : selectOpcode c v = some op) :
    opcodeValue c op = v := by
  unfold selectOpcode at h
  split_ifs at h with hli hadd hecall hebreak
  · cases h; exact hli.symm
  · cases h; exact hadd.symm
  · cases h; exact hecall.symm
  · cases h; exact hebreak.symm

/-- The block's outputs for a word that decodes: the word's own fields (R81). -/
theorem decoderPort_of_ok {i : Instr} (h : decode c w = .ok i) :
    decoderPort c w = ⟨true, some ⟨opcodeField w, rdField w, rs1Field w, rs2Field w, immField w⟩, 0, none⟩ := by
  obtain ⟨hop, hrd, hrs1, hrs2, himm, -⟩ := decode_eq_ok_iff.1 h
  simp only [decoderPort, h, opcodeValue_of_selectOpcode hop, hrd, hrs1, hrs2, himm, Cause.code]

/-- The block's outputs for a word that does not decode (R81). -/
theorem decoderPort_of_error {e : DecodeError} (h : decode c w = .error e) :
    decoderPort c w = ⟨false, none, (decodeErrorCause e).code, some (decodeErrorInfo e)⟩ := by
  simp only [decoderPort, h]

/-- No decode error has the code of NONE (R171). -/
theorem decodeErrorCause_code_ne_zero (e : DecodeError) : (decodeErrorCause e).code ≠ 0 := by
  cases e <;> simp [decodeErrorCause, Cause.code]

/-- Settles O9: the block's outputs in the decoder's two cases. -/
theorem decoderPortShowsTheFieldsOrTheError : Obligations.DecoderPortShowsTheFieldsOrTheError := by
  unfold Obligations.DecoderPortShowsTheFieldsOrTheError
  intro c w
  cases h : decode c w with
  | ok i => simp [decoderPort_of_ok h]
  | error e =>
    rw [decoderPort_of_error h]
    refine ⟨iff_of_false Bool.false_ne_true fun ⟨_, hi⟩ => DecodeResult.noConfusion hi,
      iff_of_false (decodeErrorCause_code_ne_zero e) Bool.false_ne_true, fun hok => absurd hok Bool.false_ne_true,
      fun e' he => ?_⟩
    obtain rfl := DecodeResult.error.inj he
    exact ⟨rfl, by cases e <;> rfl⟩

/-! ### The pseudo-instructions -/

/-- What ADD does (R121). -/
theorem exec_add (rd rs1 rs2 : Reg) (imm : BitVec 15) (s : State) :
    exec (.add rd rs1 rs2 imm) s = .next (s.writeReg rd (wrappingSum (s.readReg rs1) (s.readReg rs2) imm)) := by
  rfl

/-- A sum with two zero addends is the third. -/
theorem wrappingSum_zero_zero (v : Word) : wrappingSum v 0 0 = v := by
  simp [wrappingSum, immWord_toNat]

/-- Settles O52: the words by evaluation, and the copy because X0 and the immediate add nothing. -/
theorem pseudoInstructionsAreAdds : Obligations.PseudoInstructionsAreAdds := by
  unfold Obligations.PseudoInstructionsAreAdds
  refine ⟨by decide, fun rd rs => rfl, fun rd rs s => ⟨_, exec_add rd rs .x0 0 s, fun r => ?_⟩⟩
  rw [State.readReg_x0, wrappingSum_zero_zero, State.readReg_writeReg]

end Sys2Proof.Machine

/-! PROOFS. How a step ends: by a raise before the dispatch, by a raise during it, or without one, and where each leaves `pc`;
and the result of a run (spec/40_sequencer.md R103, R106, R107, R108). -/

namespace Sys2Proof.Machine

variable {s t : State}

/-! ### Failing -/

@[simp] theorem Cause.finalStatus_eq_aborted_iff {cause : Cause} :
    cause.finalStatus = .aborted ↔ cause = .unsupportedFd := by
  cases cause <;> simp [Cause.finalStatus]

@[simp] theorem Cause.finalStatus_eq_faulted_iff {cause : Cause} :
    cause.finalStatus = .faulted ↔ cause ≠ .unsupportedFd := by
  cases cause <;> simp [Cause.finalStatus]

theorem State.failed_eq_true_iff : s.failed = true ↔ s.status = .faulted ∨ s.status = .aborted := by
  simp [State.failed]

/-- A raise always fails the run: its status is one of the two of R107. -/
@[simp] theorem State.failed_raise (s : State) (cause : Cause) (info : Word) : (s.raise cause info).failed = true := by
  rw [State.failed_eq_true_iff, State.raise_status, Cause.finalStatus_eq_faulted_iff, Cause.finalStatus_eq_aborted_iff]
  exact (em _).symm

@[simp] theorem State.failed_raiseInDispatch (s : State) (cause : Cause) (info : Word) :
    (s.raiseInDispatch cause info).failed = true := State.failed_raise s cause info

theorem State.failed_eq_false_of_running (h : s.status = .running) : s.failed = false := by
  simp [State.failed, h]

/-- No decode error is recorded as NONE. -/
theorem decodeErrorCause_ne_none (e : DecodeError) : decodeErrorCause e ≠ .none := by
  cases e <;> simp [decodeErrorCause]

/-- An instruction of a RUNNING machine completes and leaves `pc`, or raises a cause other than NONE (R107). -/
theorem exec_completes_or_raises {i : Instr} (hs : s.status = .running) (h : exec i s = .next t) :
    (t.failed = false ∧ t.pc = s.pc) ∨ ∃ cause info, cause ≠ .none ∧ t = s.raiseInDispatch cause info := by
  have hsf : s.failed = false := State.failed_eq_false_of_running hs
  rcases exec_cases h with ⟨r, v, rfl⟩ | rfl | ⟨cause, info, rfl, hcause⟩ | ⟨bytes, rfl⟩ | rfl
  · exact .inl ⟨hsf, rfl⟩
  · exact .inl ⟨rfl, rfl⟩
  · refine .inr ⟨cause, info, ?_, rfl⟩
    rcases hcause with rfl | rfl | rfl <;> decide
  · exact .inl ⟨hsf, rfl⟩
  · exact .inl ⟨hsf, rfl⟩

/-! ### The advance -/

theorem canAdvance_iff : s.CanAdvance ↔ ¬(s.pc = 0xFFFFFFFC ∧ s.cfg.addrOverflow = .fault) := by
  unfold State.CanAdvance
  cases s.cfg.addrOverflow <;> simp

/-- The advance fails exactly where the pc cannot advance (R103). -/
theorem advancePc_eq_none_iff : s.advancePc = none ↔ ¬ s.CanAdvance := by
  rw [canAdvance_iff, not_not]
  rcases advancePc_cases s with ⟨h, hlast⟩ | ⟨h, hlast⟩
  · exact iff_of_true h hlast
  · exact iff_of_false (by simp [h]) hlast

/-- A decoded instruction that cannot be advanced past raises AddressOverflow with its own address (R103). -/
theorem step_of_not_canAdvance {w : Word} {i : Instr} (hs : s.status = .running) (hfetch : s.fetchWord = some w)
    (hdecode : decode s.cfg w = .ok i) (hlast : ¬ s.CanAdvance) : step s = .next (s.raise .addressOverflow s.pc) := by
  simp only [step, sequencerStep, hs, hfetch, State.runWord, hdecode, State.advanceAndDispatch,
    advancePc_eq_none_iff.2 hlast]

/-! ### The three ends of a step -/

/-- The step of `s` gets as far as the dispatch: its word is fetched and decoded, and `pc` advances (R101, parts 1 to 3). -/
def State.ReachesDispatch (s : State) : Prop :=
  ∃ w i, s.fetchWord = some w ∧ decode s.cfg w = .ok i ∧ s.CanAdvance

/-- How a step ends (R107, R108): it raises before the dispatch and leaves `pc`, or it reaches the dispatch and there either
completes past the instruction or raises from the advanced `pc`. -/
theorem step_outcome (h : step s = .next t) :
    (¬ s.ReachesDispatch ∧ ∃ cause info, cause ≠ .none ∧ t = s.raise cause info) ∨
      (s.ReachesDispatch ∧
        ((t.failed = false ∧ t.pc = s.pc + 4) ∨
          ∃ cause info, cause ≠ .none ∧ t = (s.withPc (s.pc + 4)).raiseInDispatch cause info)) := by
  obtain ⟨hs, ⟨hfetch, rfl⟩ | ⟨w, hfetch, ⟨e, hdecode, rfl⟩ | ⟨i, hdecode, ⟨hadv, rfl⟩ | ⟨hadv, hexec⟩⟩⟩⟩ := step_cases h
  · refine .inl ⟨?_, _, _, by decide, rfl⟩
    rintro ⟨w, i, hw, -⟩
    rw [hfetch] at hw
    cases hw
  · refine .inl ⟨?_, _, _, decodeErrorCause_ne_none e, rfl⟩
    rintro ⟨w', i, hw, hi, -⟩
    obtain rfl := Option.some.inj (hfetch.symm.trans hw)
    rw [hdecode] at hi
    cases hi
  · exact .inl ⟨fun ⟨_, _, _, _, hcan⟩ => advancePc_eq_none_iff.1 hadv hcan, _, _, by decide, rfl⟩
  · have hcan : s.CanAdvance := by
      by_contra hlast
      rw [advancePc_eq_none_iff.2 hlast] at hadv
      cases hadv
    exact .inr ⟨⟨w, i, hfetch, hdecode, hcan⟩, exec_completes_or_raises (s := s.withPc (s.pc + 4)) hs hexec⟩

/-- A failing step is a raise with `pc` put somewhere: no other effect is left (R107). -/
theorem step_failed_eq_raise_withPc (h : step s = .next t) (hfail : t.failed = true) :
    ∃ cause info, cause ≠ .none ∧ ∃ pc, t = (s.raise cause info).withPc pc := by
  rcases step_outcome h with ⟨-, cause, info, hne, rfl⟩ | ⟨-, ⟨hok, -⟩ | ⟨cause, info, hne, rfl⟩⟩
  · exact ⟨cause, info, hne, s.pc, rfl⟩
  · exact absurd hfail (Bool.eq_false_iff.1 hok)
  · exact ⟨cause, info, hne, _, rfl⟩

/-- Settles O32: a failing step is a raise with another `pc`, and a raise writes only the fault record and the status. -/
theorem failingStepsLeaveNoEffect : Obligations.FailingStepsLeaveNoEffect := by
  unfold Obligations.FailingStepsLeaveNoEffect
  intro s t h hfail
  obtain ⟨cause, info, hne, pc, rfl⟩ := step_failed_eq_raise_withPc h hfail
  exact ⟨rfl, rfl, rfl, rfl, ⟨cause, info, hne, rfl, pc, rfl⟩, Cause.finalStatus_eq_aborted_iff,
    Cause.finalStatus_eq_faulted_iff⟩

/-- The `pc` of a raise during the dispatch, from the address of its instruction (R108). -/
theorem faultPc_withPc_add_four (s : State) :
    (s.cfg.pcOnExecFault = .faulting → (s.withPc (s.pc + 4)).faultPc = s.pc) ∧
      (s.cfg.pcOnExecFault = .next → (s.withPc (s.pc + 4)).faultPc = s.pc + 4) := by
  constructor <;> intro hmode
  · simp [State.faultPc, hmode]
  · simp [State.faultPc, hmode]

/-- Settles O33: the two raising ends of a step, told apart by whether it reaches the dispatch. -/
theorem pcAfterAFailingStep : Obligations.PcAfterAFailingStep := by
  unfold Obligations.PcAfterAFailingStep
  intro s t h hfail
  rcases step_outcome h with ⟨hnot, cause, info, -, rfl⟩ | ⟨hreach, ⟨hok, -⟩ | ⟨cause, info, -, rfl⟩⟩
  · exact ⟨fun hreach => absurd hreach hnot, fun _ => rfl⟩
  · exact absurd hfail (Bool.eq_false_iff.1 hok)
  · exact ⟨fun _ => faultPc_withPc_add_four s, fun hnot => absurd hreach hnot⟩

/-- A step that does not fail has advanced `pc`: every end of a step but one is a raise (R103). -/
theorem step_pc_of_not_failed (h : step s = .next t) (hok : t.failed = false) : t.pc = s.pc + 4 := by
  rcases step_outcome h with ⟨-, cause, info, -, rfl⟩ | ⟨-, ⟨-, hpc⟩ | ⟨cause, info, -, rfl⟩⟩
  · exact absurd (State.failed_raise s cause info) (Bool.eq_false_iff.1 hok)
  · exact hpc
  · exact absurd (State.failed_raiseInDispatch _ cause info) (Bool.eq_false_iff.1 hok)

/-- Settles O30: at the last word under `fault` the step is the raise of the advance; elsewhere a step that does not fail is
one that advanced. -/
theorem decodedInstructionsAdvanceThePc : Obligations.DecodedInstructionsAdvanceThePc := by
  unfold Obligations.DecodedInstructionsAdvanceThePc
  intro s w i hs hfetch hdecode
  obtain ⟨t, ht⟩ := step_total hs
  refine ⟨t, ht, fun hlast hfault => ?_, fun _ hok => ?_⟩
  · have hstuck : ¬ s.CanAdvance := fun hcan => canAdvance_iff.1 hcan ⟨hlast, hfault⟩
    rw [step_of_not_canAdvance hs hfetch hdecode hstuck] at ht
    cases ht
    exact ⟨rfl, rfl, rfl, rfl, rfl, rfl⟩
  · rw [step_pc_of_not_failed ht hok, BitVec.toNat_add]
    rfl

/-! ### The result of a run -/

/-- Settles O36: each status has a result of its own kind, which carries what the fault record holds. -/
theorem resultIsTheFinalStatus : Obligations.ResultIsTheFinalStatus := by
  unfold Obligations.ResultIsTheFinalStatus
  intro s
  unfold State.result
  cases s.status <;> simp

end Sys2Proof.Machine

/-! PROOFS. What the step does with a fetched LI or ADD word, from the word's fields to the register it writes
(spec/41_integer.md R120, R121). -/

namespace Sys2Proof.Machine

variable {c : Config} {s : State} {w : Word}

/-! ### From a fetched word to its dispatch -/

theorem selectOpcode_opcLi (c : Config) : selectOpcode c opcLi = some .li := if_pos rfl

theorem selectOpcode_opcAdd (c : Config) : selectOpcode c opcAdd = some .add := by
  rw [selectOpcode, if_neg (by decide), if_pos rfl]

theorem opcodeField_eq_iff {v : BitVec 5} : opcodeField w = v ↔ w.toNat % 2 ^ 5 = v.toNat := by
  obtain ⟨hfield, -⟩ := fieldsOfAWordAreItsBitRanges w
  rw [← hfield, BitVec.toNat_inj]

/-- Under an admissible configuration the immediate of every word fits its carrier (R8, R76). -/
theorem immField_lt_carrier (hc : c.wf = true) (w : Word) : (immField w).toNat < 2 ^ c.immCarrierBits := by
  have hwide : 15 ≤ c.immCarrierBits := by
    simp only [Config.wf, Config.carrierWideEnough, Bool.and_eq_true, decide_eq_true_eq] at hc
    exact hc.2
  exact (immField w).isLt.trans_le (Nat.pow_le_pow_right (by decide) hwide)

/-- A word whose opcode is known decodes to the instruction of its fields, whatever they hold (R80). -/
theorem decode_of_selectOpcode {op : Opcode} {rd rs1 rs2 : Reg} (hc : c.wf = true)
    (hop : selectOpcode c (opcodeField w) = some op) (hrd : rd.number = rdField w) (hrs1 : rs1.number = rs1Field w)
    (hrs2 : rs2.number = rs2Field w) : decode c w = .ok (op.instr rd rs1 rs2 (immField w)) :=
  decode_eq_ok_iff.2 (by simp [hop, hrd, hrs1, hrs2, immField_lt_carrier hc w])

/-- Where the pc can advance, the step of a decoded word is its instruction, run past it (R101, R103). -/
theorem step_of_canAdvance {i : Instr} (hs : s.status = .running) (hfetch : s.fetchWord = some w)
    (hdecode : decode s.cfg w = .ok i) (hcan : s.CanAdvance) : step s = exec i (s.withPc (s.pc + 4)) := by
  have hadv : s.advancePc = some (s.withPc (s.pc + 4)) := by
    rcases advancePc_cases s with ⟨-, hlast⟩ | ⟨h, -⟩
    · exact absurd hlast (canAdvance_iff.1 hcan)
    · exact h
  simp only [step, sequencerStep, hs, hfetch, State.runWord, hdecode, State.advanceAndDispatch, hadv]

/-! ### The result and its place -/

/-- What LI does (R120). -/
theorem exec_li (rd rs1 rs2 : Reg) (imm : BitVec 15) (s : State) :
    exec (.li rd rs1 rs2 imm) s = .next (s.writeReg rd (immWord imm)) := by
  rfl

/-- ADD's result is the true sum of its addends modulo 2^32 (R121). -/
theorem wrappingSum_toNat (v1 v2 : Word) (imm : BitVec 15) :
    (wrappingSum v1 v2 imm).toNat = (v1.toNat + v2.toNat + imm.toNat) % 2 ^ 32 := by
  rw [wrappingSum, BitVec.toNat_ofNat, immWord_toNat]

/-- A write to the register a word's rd field names changes the read of that register alone, and of no register for X0. -/
theorem readReg_writeReg_rdField {rd : Reg} (hrd : rd.number = rdField w) (s : State) (v : Word) (r : Reg) :
    ((s.writeReg rd v).readReg r).toNat =
      if r.number.toNat = w.toNat / 2 ^ 5 % 2 ^ 4 ∧ r ≠ .x0 then v.toNat else (s.readReg r).toNat := by
  have hnamed : r.number.toNat = w.toNat / 2 ^ 5 % 2 ^ 4 ↔ r = rd := by
    obtain ⟨-, hfield, -⟩ := fieldsOfAWordAreItsBitRanges w
    rw [← hfield, ← hrd, BitVec.toNat_inj]
    exact ⟨number_injective, congrArg Reg.number⟩
  have hcond : (r.number.toNat = w.toNat / 2 ^ 5 % 2 ^ 4 ∧ r ≠ .x0) ↔ (r = rd ∧ rd ≠ .x0) := by
    rw [hnamed]
    exact and_congr_right fun h => h ▸ Iff.rfl
  rw [State.readReg_writeReg, apply_ite BitVec.toNat]
  exact if_congr hcond.symm rfl rfl

/-! ### The two words -/

/-- Settles O20: the word decodes to an LI of its own fields, and LI is one register write past the advance. -/
theorem liWordLoadsItsImmediate : Obligations.LiWordLoadsItsImmediate := by
  unfold Obligations.LiWordLoadsItsImmediate
  intro s w hs hc hfetch hop hcan
  obtain ⟨rd, -, hrd⟩ := registerOfField_eq_some (rdField w)
  obtain ⟨rs1, -, hrs1⟩ := registerOfField_eq_some (rs1Field w)
  obtain ⟨rs2, -, hrs2⟩ := registerOfField_eq_some (rs2Field w)
  have hli : selectOpcode s.cfg (opcodeField w) = some .li := by
    have hfield : opcodeField w = opcLi := opcodeField_eq_iff.2 hop
    rw [hfield, selectOpcode_opcLi]
  have hstep := step_of_canAdvance hs hfetch (decode_of_selectOpcode hc hli hrd hrs1 hrs2) hcan
  refine ⟨_, hstep.trans (exec_li ..), fun r => ?_, fun _ => rfl, ⟨rfl, rfl⟩, rfl, rfl, rfl⟩
  rw [readReg_writeReg_rdField hrd, immWord_toNat, immField_toNat, State.readReg_withPc]

/-- Settles O21: the word decodes to an ADD of its own fields, and the advance changes neither source it reads. -/
theorem addWordWritesTheWrappingSum : Obligations.AddWordWritesTheWrappingSum := by
  unfold Obligations.AddWordWritesTheWrappingSum
  intro s w q1 q2 hs hc hfetch hop hq1 hq2 hcan
  obtain ⟨-, -, hfield1, hfield2, -⟩ := fieldsOfAWordAreItsBitRanges w
  obtain ⟨rd, -, hrd⟩ := registerOfField_eq_some (rdField w)
  have hrs1 : q1.number = rs1Field w := BitVec.eq_of_toNat_eq (hq1.trans hfield1.symm)
  have hrs2 : q2.number = rs2Field w := BitVec.eq_of_toNat_eq (hq2.trans hfield2.symm)
  have hadd : selectOpcode s.cfg (opcodeField w) = some .add := by
    have hfield : opcodeField w = opcAdd := opcodeField_eq_iff.2 hop
    rw [hfield, selectOpcode_opcAdd]
  have hstep := step_of_canAdvance hs hfetch (decode_of_selectOpcode hc hadd hrd hrs1 hrs2) hcan
  refine ⟨_, hstep.trans (exec_add ..), fun r => ?_, fun _ => rfl, ⟨rfl, rfl⟩, rfl, rfl, rfl⟩
  rw [readReg_writeReg_rdField hrd, wrappingSum_toNat, immField_toNat, State.readReg_withPc, State.readReg_withPc,
    State.readReg_withPc]

end Sys2Proof.Machine

/-! PROOFS. What an ECALL does: the syscall table, its checks in their order, and the one append of a Write that passes them
(spec/42_system.md R142, R145, R149). -/

namespace Sys2Proof.Machine

variable {s : State}

/-- What ECALL does, whatever its fields hold (R79, R141). -/
theorem exec_ecall (rd rs1 rs2 : Reg) (imm : BitVec 15) (s : State) :
    exec (.ecall rd rs1 rs2 imm) s = execEcall s := by
  rfl

/-! ### The syscall table -/

theorem eq_syscallWrite_iff {id : Word} : id = syscallWrite ↔ id.toNat = 64 :=
  BitVec.toNat_inj.symm

@[simp] theorem resolveSyscall_syscallWrite : resolveSyscall syscallWrite = some .write := if_pos rfl

theorem resolveSyscall_of_ne {id : Word} (h : id ≠ syscallWrite) : resolveSyscall id = none := if_neg h

/-- The resolve fails first: an ECALL with an unknown identifier raises with it (R149, R175). -/
theorem execEcall_of_unknown (h : s.readReg s.cfg.sysNumReg ≠ syscallWrite) :
    execEcall s = .next (s.raiseInDispatch .unknownSyscall (s.readReg s.cfg.sysNumReg)) := by
  rcases execEcall_cases s with ⟨he, -⟩ | ⟨-, heq⟩
  · exact he
  · exact absurd heq h

/-- Settles O23: the table by its one comparison, and the raise because ECALL resolves its identifier first. -/
theorem syscallTableKnowsOnlyWrite : Obligations.SyscallTableKnowsOnlyWrite := by
  unfold Obligations.SyscallTableKnowsOnlyWrite
  refine ⟨fun id hid => ?_, fun id hid => ?_⟩
  · rw [eq_syscallWrite_iff.2 hid, resolveSyscall_syscallWrite]
  · have hne : id ≠ syscallWrite := fun heq => hid (eq_syscallWrite_iff.1 heq)
    refine ⟨resolveSyscall_of_ne hne, fun s rd rs1 rs2 imm hnum => ?_⟩
    subst hnum
    exact ⟨_, (exec_ecall ..).trans (execEcall_of_unknown hne), rfl⟩

/-! ### The checks and the append -/

/-- The output of a Write changes the trace alone, and only where a sink is attached (R144, R145). -/
theorem output_eq_withTrace (s : State) (bytes : List Byte) :
    s.output bytes = s.withTrace (if s.cfg.sinkAttached then s.trace ++ [bytes] else s.trace) := by
  rcases output_cases s bytes with ⟨h, hsink⟩ | ⟨h, hsink⟩
  · rw [h, hsink]
    rfl
  · rw [h, hsink]
    rfl

/-- The range check as `MemRead` makes it (R52), for a range whose length is a Word, in the words of R146. -/
theorem rangeFaults_iff {mode : AddrOverflow} {a n : Word} :
    (mode = .fault ∧ n ≠ 0 ∧ 2 ^ 32 < a.toNat + n.toNat) ↔ passesTop a n.toNat = true ∧ mode = .fault := by
  have hpos : n ≠ 0 ↔ 0 < n.toNat := by
    rw [Nat.pos_iff_ne_zero]
    exact BitVec.toNat_inj.symm.not
  rw [passesTop_eq_true_iff, hpos, and_comm]

/-- The three ways a range passes its check (R52). -/
theorem not_rangeFaults {mode : AddrOverflow} {a n : Word} (h : a.toNat + n.toNat ≤ 2 ^ 32 ∨ n = 0 ∨ mode = .wrap) :
    ¬(mode = .fault ∧ n ≠ 0 ∧ 2 ^ 32 < a.toNat + n.toNat) := by
  rintro ⟨hfault, hne, hpast⟩
  rcases h with hle | hzero | hwrap
  · omega
  · exact hne hzero
  · exact absurd (hfault.symm.trans hwrap) (by decide)

/-- Settles O25: the identifier's check is ECALL's, the two others are Write's in their order; a failing one is a raise, and the
append is the one effect of an ECALL that passes them all. -/
theorem ecallChecksInOrder : Obligations.EcallChecksInOrder := by
  unfold Obligations.EcallChecksInOrder
  intro rd rs1 rs2 imm s
  rw [exec_ecall]
  rcases execEcall_cases s with ⟨he, hne⟩ | ⟨he, heq⟩
  · have hnum : s.readReg s.cfg.sysNumReg ≠ 64 := hne
    refine ⟨_, he, ?_⟩
    rw [if_pos hnum]
    exact ⟨fun _ => rfl, fun _ => rfl, rfl, rfl, rfl, rfl⟩
  · have hnum : s.readReg s.cfg.sysNumReg = 64 := heq
    refine ⟨_, he, ?_⟩
    rw [if_neg (not_not.2 hnum)]
    rcases writeSyscall_cases s with ⟨hw, hfd⟩ | ⟨hw, hfd, htop⟩ | ⟨hw, hfd, hfits⟩
    · rw [hw, if_pos hfd]
      exact ⟨fun _ => rfl, fun _ => rfl, rfl, rfl, rfl, rfl⟩
    · rw [hw, if_neg (not_not.2 hfd), if_pos (rangeFaults_iff.2 htop)]
      exact ⟨fun _ => rfl, fun _ => rfl, rfl, rfl, rfl, rfl⟩
    · rw [hw, if_neg (not_not.2 hfd), if_neg (mt rangeFaults_iff.1 hfits), output_eq_withTrace]
      exact ⟨fun _ => rfl, fun _ => rfl, rfl, ⟨rfl, rfl⟩, rfl, rfl⟩

/-- Settles O24: a Write that passes its checks stands in the last case of their order; the bytes
of its append are those of `Memory.read`. -/
theorem ecallWriteCompletesWithOneAppend : Obligations.EcallWriteCompletesWithOneAppend := by
  unfold Obligations.EcallWriteCompletesWithOneAppend
  intro rd rs1 rs2 imm s hnum hfd hfits
  obtain ⟨t, ht, hregs, hmem, hcfg, hout⟩ := ecallChecksInOrder rd rs1 rs2 imm s
  rw [if_neg (not_not.2 hnum), if_neg (not_not.2 hfd), if_neg (not_rangeFaults hfits)] at hout
  obtain ⟨hrun, hpc, htrace⟩ := hout
  refine ⟨t, ht, fun hsink => ?_, fun hsink => ?_, hregs, hmem, hrun, hpc, hcfg⟩
  · rw [if_pos hsink] at htrace
    refine ⟨_, htrace, Memory.length_read .., fun i h => ?_⟩
    rw [Memory.getElem_read, address_add_ofNat]
  · rw [htrace, if_neg (Bool.eq_false_iff.1 hsink)]

end Sys2Proof.Machine

/-! PROOFS. Which exception a step raises: the undefined opcode values, the order of the checks, and the three cases of
AddressOverflow (spec/60_exceptions.md R172, R177, R178). -/

namespace Sys2Proof.Machine

variable {c : Config} {s t : State} {w : Word} {i : Instr}

/-! ### UnknownOpcode -/

/-- A value selects no opcode exactly when it is none of the four opcode values (R73, R74). -/
theorem selectOpcode_eq_none_iff {v : BitVec 5} :
    selectOpcode c v = none ↔ v ≠ 1 ∧ v ≠ 2 ∧ v ≠ c.opcEcall ∧ v ≠ c.opcEbreak := by
  unfold selectOpcode opcLi opcAdd
  split_ifs with hli hadd hecall hebreak
  · simp [hli]
  · simp [hadd]
  · simp [hecall]
  · simp [hebreak]
  · exact iff_of_true rfl ⟨hli, hadd, hecall, hebreak⟩

/-- The opcode is checked before every other field, so it alone decides on UnknownOpcode (R74, R77). -/
theorem decode_eq_unknownOpcode_iff {raw : BitVec 5} :
    decode c w = .error (.unknownOpcode raw) ↔ raw = opcodeField w ∧ selectOpcode c (opcodeField w) = none := by
  constructor
  · intro h
    rcases decode_eq_error h with ⟨he, hnone⟩ | ⟨he, -⟩
    · exact ⟨DecodeError.unknownOpcode.inj he, hnone⟩
    · cases he
  · rintro ⟨rfl, hnone⟩
    simp only [decode, hnone]

/-- A word raises UnknownOpcode with its own raw bits exactly when they are none of the four values (R172). -/
theorem decode_eq_unknownOpcode_opcodeField_iff :
    decode c w = .error (.unknownOpcode (opcodeField w)) ↔
      opcodeField w ≠ 1 ∧ opcodeField w ≠ 2 ∧ opcodeField w ≠ c.opcEcall ∧ opcodeField w ≠ c.opcEbreak := by
  rw [decode_eq_unknownOpcode_iff, eq_self_iff_true, true_and, selectOpcode_eq_none_iff]

/-- The info of an UnknownOpcode is the raw value itself (R172): a Word has room for its five bits. -/
theorem decodeErrorInfo_unknownOpcode_toNat (raw : BitVec 5) :
    (decodeErrorInfo (.unknownOpcode raw)).toNat = raw.toNat :=
  BitVec.toNat_setWidth_of_le (by decide)

/-- Settles O4: the opcode check alone decides; under the reference parameters the four values are 1 to 4. -/
theorem unknownOpcodeExactlyForUndefinedValues : Obligations.UnknownOpcodeExactlyForUndefinedValues := by
  unfold Obligations.UnknownOpcodeExactlyForUndefinedValues
  refine ⟨fun c w => decode_eq_unknownOpcode_opcodeField_iff, fun c w raw h => ?_, fun w => ?_⟩
  · obtain ⟨rfl, -⟩ := decode_eq_unknownOpcode_iff.1 h
    obtain ⟨hfield, -⟩ := fieldsOfAWordAreItsBitRanges w
    exact ⟨rfl, by rw [decodeErrorInfo_unknownOpcode_toNat, hfield]⟩
  · have hvalues : (1 : BitVec 5).toNat = 1 ∧ (2 : BitVec 5).toNat = 2 ∧ Config.reference.opcEcall.toNat = 3 ∧
        Config.reference.opcEbreak.toNat = 4 := by decide
    obtain ⟨hli, hadd, hecall, hebreak⟩ := hvalues
    simp only [decode_eq_unknownOpcode_opcodeField_iff, ne_eq, opcodeField_eq_iff, hli, hadd, hecall, hebreak]
    omega

/-! ### What the dispatch records -/

/-- Only ECALL raises: every other instruction leaves the fault record, and does not fail a RUNNING machine. -/
theorem exec_fault_of_not_ecall (hi : i.opcode ≠ .ecall) (hs : s.status = .running) (h : exec i s = .next t) :
    t.fault = s.fault ∧ t.failed = false := by
  cases i with
  | li rd rs1 rs2 imm => cases h; exact ⟨rfl, State.failed_eq_false_of_running hs⟩
  | add rd rs1 rs2 imm => cases h; exact ⟨rfl, State.failed_eq_false_of_running hs⟩
  | ecall rd rs1 rs2 imm => exact absurd rfl hi
  | ebreak rd rs1 rs2 imm => cases h; exact ⟨rfl, rfl⟩

/-- The fault record after an ECALL of a RUNNING machine: that of its first failing check, or the one before it (R149). -/
theorem exec_fault_of_ecall (hi : i.opcode = .ecall) (hs : s.status = .running) (h : exec i s = .next t) :
    if s.readReg s.cfg.sysNumReg ≠ 64 then
      t.fault = ⟨.unknownSyscall, s.readReg s.cfg.sysNumReg⟩ ∧ t.failed = true
    else if s.readReg s.cfg.sysFdReg ≠ s.cfg.stdoutFd then
      t.fault = ⟨.unsupportedFd, s.readReg s.cfg.sysFdReg⟩ ∧ t.failed = true
    else if s.cfg.addrOverflow = .fault ∧ s.readReg s.cfg.sysLenReg ≠ 0 ∧
        2 ^ 32 < (s.readReg s.cfg.sysBufReg).toNat + (s.readReg s.cfg.sysLenReg).toNat then
      t.fault = ⟨.addressOverflow, s.readReg s.cfg.sysBufReg⟩ ∧ t.failed = true
    else t.fault = s.fault ∧ t.failed = false := by
  cases i with
  | ecall rd rs1 rs2 imm =>
    obtain ⟨u, hu, -, -, -, hout⟩ := ecallChecksInOrder rd rs1 rs2 imm s
    obtain rfl : u = t := Host.Outcome.next.inj (hu.symm.trans h)
    split_ifs at hout ⊢
    · obtain ⟨hstatus, hfault, -⟩ := hout
      exact ⟨hfault, State.failed_eq_true_iff.2 (.inl hstatus)⟩
    · obtain ⟨hstatus, hfault, -⟩ := hout
      exact ⟨hfault, State.failed_eq_true_iff.2 (.inr hstatus)⟩
    · obtain ⟨hstatus, hfault, -⟩ := hout
      exact ⟨hfault, State.failed_eq_true_iff.2 (.inl hstatus)⟩
    -- The completed Write, with a sink and without.
    all_goals
      obtain ⟨⟨hstatus, hfault⟩, -⟩ := hout
      exact ⟨hfault, State.failed_eq_false_of_running (hstatus.trans hs)⟩
  | li rd rs1 rs2 imm => cases hi
  | add rd rs1 rs2 imm => cases hi
  | ebreak rd rs1 rs2 imm => cases hi

/-! ### The first failing check -/

/-- The ECALL value is free under an admissible configuration, so it selects ECALL (R8, R73). -/
theorem selectOpcode_opcEcall (hc : c.wf = true) : selectOpcode c c.opcEcall = some .ecall := by
  simp only [Config.wf, Config.opcodesDistinct, Bool.and_eq_true, bne_iff_ne] at hc
  obtain ⟨⟨⟨⟨⟨hli, hadd⟩, -⟩, -⟩, -⟩, -⟩ := hc
  rw [selectOpcode, if_neg hli, if_neg hadd, if_pos rfl]

theorem eq_ecall_iff_of_selectOpcode (hc : c.wf = true) {v : BitVec 5} {op : Opcode}
    (hop : selectOpcode c v = some op) : op = .ecall ↔ v = c.opcEcall := by
  constructor
  · rintro rfl
    exact (opcodeValue_of_selectOpcode hop).symm
  · rintro rfl
    exact Option.some.inj (hop.symm.trans (selectOpcode_opcEcall hc))

/-- Under an admissible configuration a word whose opcode is known decodes to an instruction of that opcode (R80). -/
theorem decode_eq_ok_of_selectOpcode (hc : c.wf = true) {op : Opcode} (hop : selectOpcode c (opcodeField w) = some op) :
    ∃ i, decode c w = .ok i ∧ i.opcode = op := by
  obtain ⟨rd, -, hrd⟩ := registerOfField_eq_some (rdField w)
  obtain ⟨rs1, -, hrs1⟩ := registerOfField_eq_some (rs1Field w)
  obtain ⟨rs2, -, hrs2⟩ := registerOfField_eq_some (rs2Field w)
  exact ⟨_, decode_of_selectOpcode hc hop hrd hrs1 hrs2, Opcode.instr_opcode ..⟩

/-- A failed fetch is raised before anything else is looked at (R101, R178). -/
theorem step_of_fetchWord_eq_none (hs : s.status = .running) (hfetch : s.fetchWord = none) :
    step s = .next (s.raise .addressOverflow s.pc) := by
  simp only [step, sequencerStep, hs, hfetch]

/-- A word that does not decode is raised before the advance (R101, R178). -/
theorem step_of_decode_error {e : DecodeError} (hs : s.status = .running) (hfetch : s.fetchWord = some w)
    (hdecode : decode s.cfg w = .error e) : step s = .next (s.raise (decodeErrorCause e) (decodeErrorInfo e)) := by
  simp only [step, sequencerStep, hs, hfetch, State.runWord, hdecode]

/-- Settles O31: each check in its order, fetch, opcode, advance, and then, for an ECALL alone, the three of the dispatch. -/
theorem firstFailingCheckDecidesTheException : Obligations.FirstFailingCheckDecidesTheException := by
  unfold Obligations.FirstFailingCheckDecidesTheException
  intro s w hs hc hw
  rcases fetchWord_cases s with ⟨hfetch, hpast⟩ | ⟨hfetch, hfits⟩
  · refine ⟨_, step_of_fetchWord_eq_none hs hfetch, ?_⟩
    rw [if_pos hpast]
    exact ⟨rfl, State.failed_raise ..⟩
  rw [← hw] at hfetch
  simp only [if_neg hfits]
  cases hop : selectOpcode s.cfg (opcodeField w) with
  | none =>
    refine ⟨_, step_of_decode_error hs hfetch (decode_eq_unknownOpcode_iff.2 ⟨rfl, hop⟩), ?_⟩
    rw [if_pos (selectOpcode_eq_none_iff.1 hop)]
    exact ⟨rfl, State.failed_raise ..⟩
  | some op =>
    have hknown := mt selectOpcode_eq_none_iff.2 (ne_of_eq_of_ne hop (Option.some_ne_none op))
    obtain ⟨i, hdecode, rfl⟩ := decode_eq_ok_of_selectOpcode hc hop
    simp only [if_neg hknown]
    by_cases hcan : s.CanAdvance
    · obtain ⟨t, ht⟩ := exec_total i (s.withPc (s.pc + 4))
      refine ⟨t, (step_of_canAdvance hs hfetch hdecode hcan).trans ht, ?_⟩
      rw [if_neg (canAdvance_iff.1 hcan)]
      by_cases hecall : i.opcode = .ecall
      · simp only [(eq_ecall_iff_of_selectOpcode hc hop).1 hecall, true_and]
        exact exec_fault_of_ecall (s := s.withPc (s.pc + 4)) hecall hs ht
      · simp only [mt (eq_ecall_iff_of_selectOpcode hc hop).2 hecall, false_and, if_false]
        exact exec_fault_of_not_ecall (s := s.withPc (s.pc + 4)) hecall hs ht
    · refine ⟨_, step_of_not_canAdvance hs hfetch hdecode hcan, ?_⟩
      rw [if_pos (not_not.1 (mt canAdvance_iff.2 hcan))]
      exact ⟨rfl, State.failed_raise ..⟩

/-! ### AddressOverflow -/

/-- No decode error is an AddressOverflow (R171). -/
theorem decodeErrorCause_ne_addressOverflow (e : DecodeError) : decodeErrorCause e ≠ .addressOverflow := by
  cases e <;> simp [decodeErrorCause]

/-- The dispatch records AddressOverflow for a Write alone whose buffer passes the top under `fault` (R146, R177). -/
theorem exec_addressOverflow_iff (hs : s.status = .running) (hnone : s.fault.cause = .none) (h : exec i s = .next t) :
    t.fault.cause = .addressOverflow ↔
      s.cfg.addrOverflow = .fault ∧ i.opcode = .ecall ∧ s.readReg s.cfg.sysNumReg = 64 ∧
        s.readReg s.cfg.sysFdReg = s.cfg.stdoutFd ∧ s.readReg s.cfg.sysLenReg ≠ 0 ∧
        2 ^ 32 < (s.readReg s.cfg.sysBufReg).toNat + (s.readReg s.cfg.sysLenReg).toNat := by
  by_cases hi : i.opcode = .ecall
  · have hout := exec_fault_of_ecall hi hs h
    split_ifs at hout with hnum hfd hrange
    · exact iff_of_false (by simp [hout]) fun ⟨_, _, hnum', _⟩ => hnum hnum'
    · exact iff_of_false (by simp [hout]) fun ⟨_, _, _, hfd', _⟩ => hfd hfd'
    · obtain ⟨hmode, hlen, hpast⟩ := hrange
      exact iff_of_true (by rw [hout.1]) ⟨hmode, hi, not_not.1 hnum, not_not.1 hfd, hlen, hpast⟩
    · exact iff_of_false (by simp [hout, hnone]) fun ⟨hmode, _, _, _, hlen, hpast⟩ => hrange ⟨hmode, hlen, hpast⟩
  · obtain ⟨hfault, -⟩ := exec_fault_of_not_ecall hi hs h
    simp [hfault, hnone, hi]

/-- The info of an AddressOverflow of the dispatch is the buffer's address (R177). -/
theorem exec_addressOverflow_info (hs : s.status = .running) (hnone : s.fault.cause = .none) (h : exec i s = .next t)
    (ht : t.fault.cause = .addressOverflow) : t.fault.info = s.readReg s.cfg.sysBufReg := by
  obtain ⟨hmode, hi, hnum, hfd, hlen, hpast⟩ := (exec_addressOverflow_iff hs hnone h).1 ht
  have hout := exec_fault_of_ecall hi hs h
  rw [if_neg (not_not.2 hnum), if_neg (not_not.2 hfd), if_pos ⟨hmode, hlen, hpast⟩] at hout
  rw [hout.1]

/-- Under `fault` an instruction that is fetched and advanced past lies below the last word (R55, R103). -/
theorem pc_lt_of_advancePc {u : State} (hmode : s.cfg.addrOverflow = .fault) (hfetch : s.fetchWord = some w)
    (hadv : s.advancePc = some u) : s.pc.toNat < 0xFFFFFFFC := by
  have hfits : ¬(0xFFFFFFFC < s.pc.toNat ∧ s.cfg.addrOverflow = .fault) :=
    mt fetchWord_eq_none_iff.2 (ne_of_eq_of_ne hfetch (Option.some_ne_none w))
  have hlast : s.pc ≠ 0xFFFFFFFC := fun hlast =>
    Option.some_ne_none u (hadv.symm.trans (advancePc_eq_none_iff.2 fun hcan => canAdvance_iff.1 hcan ⟨hlast, hmode⟩))
  exact lt_of_le_of_ne (not_lt.1 fun hpast => hfits ⟨hpast, hmode⟩) fun heq => hlast (BitVec.eq_of_toNat_eq heq)

/-- Settles O34: of the four ends of a step the fetch and the advance record AddressOverflow with `pc`, the decode error never
does, and the dispatch does for a Write, with its buffer. The `pc` of a created machine stays a multiple of 4. -/
theorem addressOverflowInThreeCasesOnly : Obligations.AddressOverflowInThreeCasesOnly := by
  unfold Obligations.AddressOverflowInThreeCasesOnly
  refine ⟨fun s t h hnone => ?_, fun events u h => (pcAligned_of_created h).pc_le⟩
  obtain ⟨hs, ⟨hfetch, rfl⟩ | ⟨w, hfetch, ⟨e, hdecode, rfl⟩ | ⟨i, hdecode, ⟨hstuck, rfl⟩ | ⟨hadv, hexec⟩⟩⟩⟩ := step_cases h
  · obtain ⟨hpast, hmode⟩ := fetchWord_eq_none_iff.1 hfetch
    exact ⟨iff_of_true rfl ⟨hmode, .inl hpast⟩, fun _ => ⟨fun _ => rfl, fun hlow => by omega⟩⟩
  · have hne := decodeErrorCause_ne_addressOverflow e
    refine ⟨iff_of_false hne ?_, fun hcause => absurd hcause hne⟩
    rintro ⟨hmode, hpast | ⟨w', i, hw', hi, -⟩⟩
    · rw [fetchWord_eq_none_iff.2 ⟨hpast, hmode⟩] at hfetch
      cases hfetch
    · obtain rfl := Option.some.inj (hfetch.symm.trans hw')
      rw [hdecode] at hi
      cases hi
  · obtain ⟨hlast, hmode⟩ := not_not.1 (mt canAdvance_iff.2 (advancePc_eq_none_iff.1 hstuck))
    exact ⟨iff_of_true rfl ⟨hmode, .inr ⟨w, i, hfetch, hdecode, .inl hlast⟩⟩,
      fun _ => ⟨fun _ => rfl, fun hlow => by simp [hlast] at hlow⟩⟩
  · have hiff := exec_addressOverflow_iff (s := s.withPc (s.pc + 4)) hs hnone hexec
    refine ⟨hiff.trans ⟨?_, ?_⟩, fun hcause => ?_⟩
    · rintro ⟨hmode, hwrite⟩
      have hlow := pc_lt_of_advancePc (s := s) hmode hfetch hadv
      exact ⟨hmode, .inr ⟨w, i, hfetch, hdecode, .inr ⟨hlow, hwrite⟩⟩⟩
    · rintro ⟨hmode, hcase⟩
      have hlow := pc_lt_of_advancePc hmode hfetch hadv
      rcases hcase with hpast | ⟨w', i', hw', hi', hlast | ⟨-, hwrite⟩⟩
      · omega
      · simp [hlast] at hlow
      · obtain rfl := Option.some.inj (hfetch.symm.trans hw')
        obtain rfl := DecodeResult.ok.inj (hdecode.symm.trans hi')
        exact ⟨hmode, hwrite⟩
    · obtain ⟨hmode, -⟩ := hiff.1 hcause
      have hlow := pc_lt_of_advancePc (s := s) hmode hfetch hadv
      exact ⟨fun hhigh => by omega,
        fun _ => exec_addressOverflow_info (s := s.withPc (s.pc + 4)) hs hnone hexec hcause⟩

end Sys2Proof.Machine

/-! PROOFS. The machine after reset, and the machine booted with an image: what a `MemWrite` leaves at each address, and the
fetch of a word image (spec/70_reset_and_hazards.md R200, R202). -/

namespace Sys2Proof.Machine

variable {s : State} {m : Memory}

/-! ### Reset -/

@[simp] theorem Memory.get_nil (x : Address) : Memory.get [] x = 0 := rfl

theorem State.regs_reset (i : Fin 16) : State.reset.regs[i.val] = 0 := by
  simp [State.reset]

/-- Settles O44: the register file is 16 zeros and no byte is listed; the other fields are reset's own. -/
theorem resetLeavesEverythingZeroAndRunning : Obligations.ResetLeavesEverythingZeroAndRunning := by
  unfold Obligations.ResetLeavesEverythingZeroAndRunning
  exact ⟨rfl, State.readReg_reset, State.regs_reset, Memory.get_nil, rfl, rfl, rfl, rfl⟩

/-! ### Memory after a `MemWrite` -/

/-- Any address but `a` is one byte nearer to `a + 1` than to `a`, counted upwards modulo 2^32. -/
theorem toNat_sub_eq_succ {a x : Address} (hx : x ≠ a) : (x - a).toNat = (x - (a + 1)).toNat + 1 := by
  bv_omega

/-- A read after a `MemWrite` that does not lap itself (R53): the byte as far into the list as the address is past the first
one, or the old byte where the list ends before it. -/
theorem Memory.get_write (hm : m.wf = true) (a x : Address) {bytes : List Byte} (hlen : bytes.length ≤ 2 ^ 32) :
    (m.write a bytes).get x = bytes[(x - a).toNat]?.getD (m.get x) := by
  induction bytes generalizing m a with
  | nil => rfl
  | cons b rest ih =>
    rw [List.length_cons] at hlen
    rw [Memory.write, ih (Memory.wf_set hm a b) (a + 1) (by omega), Memory.get_set hm]
    by_cases hx : x = a
    · have hpast : rest.length ≤ (x - (a + 1)).toNat := by bv_omega
      rw [List.getElem?_eq_none hpast, Option.getD_none, if_pos hx, hx, BitVec.sub_self]
      rfl
    · rw [toNat_sub_eq_succ hx, List.getElem?_cons_succ, if_neg hx]

/-! ### Boot -/

/-- The booted machine is the reset machine with the image written from address 0 up, and a sink or none (R201, R202). -/
theorem boot_eq_some {image : List Byte} (sink : Bool) (hlen : image.length ≤ 2 ^ 32) :
    boot image sink = some
      { State.reset.hostWrite 0 image with cfg := { Config.reference with sinkAttached := sink } } := by
  rw [boot, if_pos hlen]
  cases sink <;> rfl

/-- The memory of a booted machine: the image's bytes, then zeros (R202). -/
theorem Memory.get_image {image : List Byte} (hlen : image.length ≤ 2 ^ 32) (x : Address) :
    (State.reset.mem.write 0 image).get x = image[x.toNat]?.getD 0 := by
  rw [Memory.get_write (m := State.reset.mem) Memory.wf_nil 0 x hlen, sub_zero]
  rfl

/-! ### A word image and its fetches -/

@[simp] theorem length_bytesOfWord (w : Word) : (bytesOfWord w).length = 4 := rfl

theorem length_wordImage (words : List Word) : (wordImage words).length = 4 * words.length := by
  induction words with
  | nil => rfl
  | cons w ws ih =>
    rw [wordImage, List.flatMap_cons, List.length_append, ← wordImage, ih, length_bytesOfWord, List.length_cons]
    omega

/-- Byte `j` of word `k` stands at place `4k + j` of a word image (R202, D22). -/
theorem getElem?_wordImage {words : List Word} {k j : Nat} (hk : k < words.length) (hj : j < 4) :
    (wordImage words)[4 * k + j]? = (bytesOfWord words[k])[j]? := by
  induction words generalizing k with
  | nil => simp at hk
  | cons w ws ih =>
    rw [wordImage, List.flatMap_cons, ← wordImage]
    cases k with
    | zero => rw [Nat.mul_zero, Nat.zero_add, List.getElem?_append_left hj, List.getElem_cons_zero]
    | succ k =>
      have hplace : 4 * (k + 1) + j = (bytesOfWord w).length + (4 * k + j) := by
        rw [length_bytesOfWord]
        omega
      rw [hplace, List.getElem?_append_right (Nat.le_add_right ..), Nat.add_sub_cancel_left,
        ih (Nat.lt_of_succ_lt_succ hk), List.getElem_cons_succ]

/-- A fetch that does not pass the top gives the word whose four bytes stand at `pc` (R55). -/
theorem fetchWord_of_bytesOfWord {w : Word} (hpc : s.pc.toNat ≤ 0xFFFFFFFC)
    (hbytes : ∀ j : Nat, (hj : j < 4) → s.mem.get (s.pc + BitVec.ofNat 32 j) = (bytesOfWord w)[j]) :
    s.fetchWord = some w := by
  rcases fetchWord_cases s with ⟨-, hpast, -⟩ | ⟨hfetch, -⟩
  · omega
  · have h0 : s.mem.get s.pc = w.extractLsb' 24 8 := by simpa [bytesOfWord] using hbytes 0 (by decide)
    have h1 : s.mem.get (s.pc + 1) = w.extractLsb' 16 8 := hbytes 1 (by decide)
    have h2 : s.mem.get (s.pc + 2) = w.extractLsb' 8 8 := hbytes 2 (by decide)
    have h3 : s.mem.get (s.pc + 3) = w.extractLsb' 0 8 := hbytes 3 (by decide)
    rw [hfetch, h0, h1, h2, h3, wordOfBytes_bytesOfWord]

/-- Word `k` of a word image is fetched at `4k`, from whatever machine holds the image (R202). -/
theorem fetchWord_wordImage {words : List Word} (hlen : 4 * words.length ≤ 2 ^ 32)
    (hmem : s.mem = State.reset.mem.write 0 (wordImage words)) {k : Nat} (hk : k < words.length) :
    (s.withPc (BitVec.ofNat 32 (4 * k))).fetchWord = some words[k] := by
  refine fetchWord_of_bytesOfWord ?_ fun j hj => ?_
  · rw [State.withPc_pc, BitVec.toNat_ofNat]
    omega
  · have hplace : (BitVec.ofNat 32 (4 * k) + BitVec.ofNat 32 j).toNat = 4 * k + j := by
      rw [← BitVec.ofNat_add, BitVec.toNat_ofNat]
      omega
    rw [State.withPc_mem, State.withPc_pc, hmem, Memory.get_image (length_wordImage words ▸ hlen), hplace,
      getElem?_wordImage hk hj, List.getElem?_eq_getElem hj, Option.getD_some]

/-- Settles O15: the booted state is known in full, its memory by what a `MemWrite` leaves at each address, and each fetch by
the place of the word's four bytes in the image. -/
theorem bootLoadsTheImageAtZero : Obligations.BootLoadsTheImageAtZero := by
  unfold Obligations.BootLoadsTheImageAtZero
  refine ⟨fun image sink hlen => ⟨_, boot_eq_some sink hlen, fun a => ?_, rfl, State.readReg_reset, rfl, rfl, rfl, rfl⟩,
    fun words sink hlen => ⟨_, boot_eq_some sink (length_wordImage words ▸ hlen), fun k hk => ?_⟩⟩
  · exact (Memory.get_image hlen a).trans (List.getD_getElem? ..)
  · exact fetchWord_wordImage hlen rfl hk

end Sys2Proof.Machine

/-! PROOFS. Decoding and encoding are inverse to each other, every word decodes or has an undefined opcode, and the fields an
instruction does not use never matter (spec/30_encoding.md section 4, R80, R82). -/

namespace Sys2Proof.Machine

variable {c : Config} {w v : Word} {i j : Instr} {s : State}

/-! ### Decoding an encoded instruction -/

/-- An opcode is selected by its own value exactly when no opcode tried before it has that value (R77). -/
theorem selectOpcode_opcodeValue_iff (op : Opcode) : selectOpcode c (opcodeValue c op) = some op ↔ op.wf c = true := by
  cases op with
  | li => exact iff_of_true (selectOpcode_opcLi c) rfl
  | add => exact iff_of_true (selectOpcode_opcAdd c) (show (opcAdd != opcLi) = true by decide)
  | ecall =>
    simp only [selectOpcode, opcodeValue, Opcode.wf, Bool.and_eq_true, bne_iff_ne]
    split_ifs with hli hadd
    · simp [hli]
    · simp [hadd]
    · exact iff_of_true rfl ⟨hli, hadd⟩
  | ebreak =>
    simp only [selectOpcode, opcodeValue, Opcode.wf, Bool.and_eq_true, bne_iff_ne]
    split_ifs with hli hadd hecall
    · simp [hli]
    · simp [hadd]
    · simp [hecall]
    · exact iff_of_true rfl ⟨⟨hli, hadd⟩, hecall⟩

theorem Instr.wf_iff : i.wf c = true ↔ i.opcode.wf c = true ∧ i.imm.toNat < 2 ^ c.immCarrierBits := by
  rw [Instr.wf, Bool.and_eq_true, Instr.immFits, decide_eq_true_iff]

/-- The decoder reads an instruction's own fields from its word, so only its opcode and its immediate can be lost (R82). -/
theorem decode_encode_iff : decode c (encode c i) = .ok i ↔ i.wf c = true := by
  obtain ⟨hop, hrd, hrs1, hrs2, himm⟩ := Laws.EncodedFields.all i c
  rw [decode_eq_ok_iff, hop, hrd, hrs1, hrs2, himm, selectOpcode_opcodeValue_iff, Instr.wf_iff]
  simp only [true_and]

theorem Opcode.wf_of_config_wf (hc : c.wf = true) (op : Opcode) : op.wf c = true := by
  simp only [Config.wf, Config.opcodesDistinct, Bool.and_eq_true, bne_iff_ne] at hc
  obtain ⟨⟨⟨⟨⟨hecallLi, hecallAdd⟩, hebreakLi⟩, hebreakAdd⟩, hne⟩, -⟩ := hc
  cases op with
  | li => rfl
  | add => exact show (opcAdd != opcLi) = true by decide
  | ecall => simp [Opcode.wf, hecallLi, hecallAdd]
  | ebreak => simp [Opcode.wf, hebreakLi, hebreakAdd, hne.symm]

/-- Under an admissible configuration the carrier holds every immediate (R8, R76). -/
theorem imm_lt_carrier (hc : c.wf = true) (imm : BitVec 15) : imm.toNat < 2 ^ c.immCarrierBits := by
  have himm := immField_lt_carrier hc (encodeFields 0 0 0 0 imm)
  rwa [immField_encodeFields] at himm

/-- Settles O2: the decoder reads back the fields of the encoder, and an admissible configuration tells the opcodes apart and
holds every immediate. -/
theorem decodeInvertsEncode : Obligations.DecodeInvertsEncode := by
  unfold Obligations.DecodeInvertsEncode
  exact fun c => ⟨fun i => decode_encode_iff,
    fun hc i => Instr.wf_iff.2 ⟨Opcode.wf_of_config_wf hc i.opcode, imm_lt_carrier hc i.imm⟩⟩

/-! ### Encoding a decoded word -/

/-- A decoded instruction holds the word's five fields, and they cover the word (R71). -/
theorem encode_of_decode (h : decode c w = .ok i) : encode c i = w := by
  obtain ⟨hop, hrd, hrs1, hrs2, himm, -⟩ := decode_eq_ok_iff.1 h
  rw [encode, opcodeValue_of_selectOpcode hop, hrd, hrs1, hrs2, himm, encodeFields_fields]

/-- Settles O3: the word is the encoding, and so the instruction is one that decoding gives back. -/
theorem encodeInvertsDecode : Obligations.EncodeInvertsDecode := by
  unfold Obligations.EncodeInvertsDecode
  intro c w i h
  have hword := encode_of_decode h
  exact ⟨hword, decode_encode_iff.1 (hword.symm ▸ h)⟩

/-! ### The encoding space -/

/-- Under an admissible configuration UnknownOpcode is the only decode error (R80). -/
theorem eq_unknownOpcode_of_decode_error (hc : c.wf = true) {e : DecodeError} (h : decode c w = .error e) :
    e = .unknownOpcode (opcodeField w) := by
  rcases decode_eq_error h with ⟨he, -⟩ | ⟨-, -, hlarge⟩
  · exact he
  · exact absurd (immField_lt_carrier hc w) hlarge.not_gt

/-- Settles O7: a word that does not decode to an instruction gives an error, and there is only one. -/
theorem everyWordDecodesOrIsUnknownOpcode : Obligations.EveryWordDecodesOrIsUnknownOpcode := by
  unfold Obligations.EveryWordDecodesOrIsUnknownOpcode
  intro c hc w
  cases h : decode c w with
  | ok i => exact .inl ⟨i, rfl⟩
  | error e => exact .inr (by rw [eq_unknownOpcode_of_decode_error hc h])

/-- Settles O10: each of the four words is decoded by evaluation. -/
theorem sampleWordsDecode : Obligations.SampleWordsDecode := by
  unfold Obligations.SampleWordsDecode
  refine ⟨?_, ?_, ?_, ?_⟩ <;> decide

/-! ### Unused fields -/

/-- The EBREAK value is free under an admissible configuration, so it selects EBREAK (R8, R73). -/
theorem selectOpcode_opcEbreak (hc : c.wf = true) : selectOpcode c c.opcEbreak = some .ebreak :=
  (selectOpcode_opcodeValue_iff .ebreak).2 (Opcode.wf_of_config_wf hc .ebreak)

theorem exec_of_opcode_li (hi : i.opcode = .li) (s : State) : exec i s = .next (s.writeReg i.rd (immWord i.imm)) := by
  cases i with
  | li rd rs1 rs2 imm => exact exec_li ..
  | add | ecall | ebreak => cases hi

theorem exec_of_opcode_ecall (hi : i.opcode = .ecall) (s : State) : exec i s = execEcall s := by
  cases i with
  | ecall rd rs1 rs2 imm => exact exec_ecall ..
  | li | add | ebreak => cases hi

/-- What EBREAK does (R150). -/
theorem exec_of_opcode_ebreak (hi : i.opcode = .ebreak) (s : State) : exec i s = .next s.halt := by
  cases i with
  | ebreak rd rs1 rs2 imm => rfl
  | li | add | ecall => cases hi

/-- Words that decode to instructions of the same effect are run alike (R101). -/
theorem runWord_eq_of_exec_eq (hw : decode s.cfg w = .ok i) (hv : decode s.cfg v = .ok j)
    (h : ∀ u, exec i u = exec j u) : s.runWord w = s.runWord v := by
  simp only [State.runWord, hw, hv, State.advanceAndDispatch, h]

/-- Words with the same known opcode both decode, and are run alike where their instructions have the same effect. -/
theorem decodes_and_runs_alike {op : Opcode} (hc : s.cfg.wf = true) (hwv : opcodeField w = opcodeField v)
    (hop : selectOpcode s.cfg (opcodeField w) = some op)
    (hexec : ∀ {i j}, decode s.cfg w = .ok i → decode s.cfg v = .ok j → i.opcode = op → j.opcode = op →
      ∀ u, exec i u = exec j u) :
    (∃ i, decode s.cfg w = .ok i) ∧ s.runWord w = s.runWord v := by
  obtain ⟨i, hi, hiop⟩ := decode_eq_ok_of_selectOpcode hc hop
  obtain ⟨j, hj, hjop⟩ := decode_eq_ok_of_selectOpcode hc (hwv ▸ hop)
  exact ⟨⟨i, hi⟩, runWord_eq_of_exec_eq hi hj (hexec hi hj hiop hjop)⟩

/-- Settles O8: both words decode to instructions of the one opcode; ECALL and EBREAK take nothing from theirs, and LI the two
fields in which the words agree. -/
theorem unusedFieldsNeverMatter : Obligations.UnusedFieldsNeverMatter := by
  unfold Obligations.UnusedFieldsNeverMatter
  intro s w v hc hwv hcase
  rcases hcase with hecall | hebreak | ⟨hli, hrd, himm⟩
  · refine decodes_and_runs_alike hc hwv (hecall ▸ selectOpcode_opcEcall hc) fun _ _ hi hj u => ?_
    rw [exec_of_opcode_ecall hi, exec_of_opcode_ecall hj]
  · refine decodes_and_runs_alike hc hwv (hebreak ▸ selectOpcode_opcEbreak hc) fun _ _ hi hj u => ?_
    rw [exec_of_opcode_ebreak hi, exec_of_opcode_ebreak hj]
  · have hop : selectOpcode s.cfg (opcodeField w) = some .li := (congrArg _ hli).trans (selectOpcode_opcLi s.cfg)
    refine decodes_and_runs_alike hc hwv hop fun {i j} hdi hdj hi hj u => ?_
    obtain ⟨-, hird, -, -, hiimm, -⟩ := decode_eq_ok_iff.1 hdi
    obtain ⟨-, hjrd, -, -, hjimm, -⟩ := decode_eq_ok_iff.1 hdj
    have hsame : i.rd = j.rd := number_injective (hird.trans (hrd.trans hjrd.symm))
    rw [exec_of_opcode_li hi, exec_of_opcode_li hj, hsame, hiimm, hjimm, himm]

end Sys2Proof.Machine

/-! PROOFS. Canonical memories are equal when they read alike, and what a `MemWrite` that fits stores and leaves
(spec/20_memory.md sections 1 and 6). -/

namespace Sys2Proof.Machine

variable {lo k : Nat} {b : Byte} {m m' : Memory}

/-! ### The canonical form is unique -/

theorem Memory.lookup_cons (k : Nat) (b : Byte) (m : Memory) (x : Nat) :
    Memory.lookup ((k, b) :: m) x = if x = k then b else m.lookup x := rfl

/-- A canonical memory with a byte listed at `k` is not empty, and its first address is at most `k`. -/
theorem Memory.exists_head_le (hm : Memory.wfFrom lo m = true) (hk : m.lookup k ≠ unlistedByte) :
    ∃ k' b' rest, m = (k', b') :: rest ∧ k' ≤ k := by
  cases m with
  | nil => exact absurd rfl hk
  | cons c rest =>
    obtain ⟨k', b'⟩ := c
    refine ⟨k', b', rest, rfl, not_lt.1 fun hlt => hk ?_⟩
    obtain ⟨-, hlt32, hb, hr⟩ := Memory.wfFrom_cons.1 hm
    exact Memory.lookup_below hlt (Memory.wfFrom_cons.2 ⟨le_refl k', hlt32, hb, hr⟩)

/-- The first address of a canonical memory has a byte listed. -/
theorem Memory.lookup_head_ne (hm : Memory.wfFrom lo ((k, b) :: m) = true) :
    Memory.lookup ((k, b) :: m) k ≠ unlistedByte := by
  obtain ⟨-, -, hb, -⟩ := Memory.wfFrom_cons.1 hm
  rwa [Memory.lookup_cons, if_pos rfl]

/-- Memories with the same first address that read alike still do so without their first bytes: nothing else is listed there. -/
theorem Memory.lookup_tail_eq {b' : Byte} (hm : Memory.wfFrom (k + 1) m = true) (hm' : Memory.wfFrom (k + 1) m' = true)
    (h : ∀ x, Memory.lookup ((k, b) :: m) x = Memory.lookup ((k, b') :: m') x) (x : Nat) : m.lookup x = m'.lookup x := by
  by_cases hx : x = k
  · rw [Memory.lookup_below (by omega) hm, Memory.lookup_below (by omega) hm']
  · simpa only [Memory.lookup_cons, if_neg hx] using h x

/-- Two canonical memories that read alike are equal: each one's first address is at most the other's. -/
theorem Memory.eq_of_lookup_eq (hm : Memory.wfFrom lo m = true) (hm' : Memory.wfFrom lo m' = true)
    (h : ∀ x, m.lookup x = m'.lookup x) : m = m' := by
  induction m generalizing lo m' with
  | nil =>
    cases m' with
    | nil => rfl
    | cons c rest' => exact absurd (h c.1).symm (Memory.lookup_head_ne hm')
  | cons c rest ih =>
    obtain ⟨k, b⟩ := c
    obtain ⟨k', b', rest', rfl, hle'⟩ := Memory.exists_head_le hm' (h k ▸ Memory.lookup_head_ne hm)
    obtain ⟨_, _, _, heq, hle⟩ := Memory.exists_head_le hm (h k' ▸ Memory.lookup_head_ne hm')
    cases heq
    obtain rfl : k = k' := le_antisymm hle hle'
    obtain ⟨-, -, -, hr⟩ := Memory.wfFrom_cons.1 hm
    obtain ⟨-, -, -, hr'⟩ := Memory.wfFrom_cons.1 hm'
    obtain rfl : b = b' := by simpa [Memory.lookup_cons] using h k
    rw [ih hr hr' (Memory.lookup_tail_eq hr hr' h)]

/-- No canonical memory lists an address past the top. -/
theorem Memory.lookup_above {x : Nat} (hm : Memory.wfFrom lo m = true) (hx : 2 ^ 32 ≤ x) : m.lookup x = unlistedByte := by
  induction m generalizing lo with
  | nil => rfl
  | cons c rest ih =>
    obtain ⟨k, b⟩ := c
    obtain ⟨-, hlt, -, hr⟩ := Memory.wfFrom_cons.1 hm
    rw [Memory.lookup_cons, if_neg (by omega), ih hr]

/-- Settles O13: memories that read alike at every address do so at every number, and their lists are compared from the lowest
address up. -/
theorem canonicalMemoriesThatReadAlikeAreEqual : Obligations.CanonicalMemoriesThatReadAlikeAreEqual := by
  unfold Obligations.CanonicalMemoriesThatReadAlikeAreEqual
  intro m m' hm hm' h
  refine Memory.eq_of_lookup_eq hm hm' fun x => ?_
  by_cases hx : x < 2 ^ 32
  · have hget := h (BitVec.ofNat 32 x)
    rwa [Memory.get, Memory.get, BitVec.toNat_ofNat, Nat.mod_eq_of_lt hx] at hget
  · rw [Memory.lookup_above hm (not_lt.1 hx), Memory.lookup_above hm' (not_lt.1 hx)]

/-! ### `MemWrite` -/

/-- Settles O14: both from what a `MemWrite` leaves at each address, by how far past the first one it is. -/
theorem memWriteStoresExactlyItsBytes : Obligations.MemWriteStoresExactlyItsBytes := by
  unfold Obligations.MemWriteStoresExactlyItsBytes
  intro m a bytes hm hfits
  have hlen : bytes.length ≤ 2 ^ 32 := by omega
  refine ⟨fun i hi => ?_, fun x hx => ?_⟩
  · have hplace : (a + BitVec.ofNat 32 i - a).toNat = i := by
      rw [add_sub_cancel_left, BitVec.toNat_ofNat, Nat.mod_eq_of_lt (by omega)]
    rw [Memory.get_write hm a _ hlen, hplace, List.getElem?_eq_getElem hi, Option.getD_some]
  · have hpast : bytes.length ≤ (x - a).toNat := by
      rw [BitVec.toNat_sub]
      omega
    rw [Memory.get_write hm a x hlen, List.getElem?_eq_none hpast, Option.getD_none]

end Sys2Proof.Machine

/-! PROOFS. The four instructions at the level of `exec`, the step of a decoded instruction, EBREAK as the one way to halt, and
unwritten memory (spec/41_integer.md, spec/42_system.md section 4, spec/40_sequencer.md section 1,
spec/70_reset_and_hazards.md section 3). -/

namespace Sys2Proof.Machine

variable {s t : State} {w : Word} {i : Instr}

/-! ### LI, ADD and EBREAK -/

/-- Settles O18: LI is one register write of its immediate. -/
theorem liCompletesWithItsImmediate : Obligations.LiCompletesWithItsImmediate := by
  unfold Obligations.LiCompletesWithItsImmediate
  refine fun rd rs1 rs2 imm s => ⟨_, exec_li .., fun r => ?_, fun _ => rfl, ⟨rfl, rfl⟩, rfl, rfl, rfl⟩
  rw [State.readReg_writeReg, apply_ite BitVec.toNat, immWord_toNat]

/-- Settles O19: ADD is one register write of the wrapping sum. -/
theorem addCompletesWithTheWrappingSum : Obligations.AddCompletesWithTheWrappingSum := by
  unfold Obligations.AddCompletesWithTheWrappingSum
  refine fun rd rs1 rs2 imm s => ⟨_, exec_add .., fun r => ?_, fun _ => rfl, ⟨rfl, rfl⟩, rfl, rfl, rfl⟩
  rw [State.readReg_writeReg, apply_ite BitVec.toNat, wrappingSum_toNat]

/-- The wrapping sum is the bit vectors' own (R122). -/
theorem wrappingSum_eq_add (v1 v2 : Word) (imm : BitVec 15) : wrappingSum v1 v2 imm = v1 + v2 + immWord imm := by
  rw [wrappingSum, BitVec.ofNat_add, BitVec.ofNat_add, BitVec.ofNat_toNat, BitVec.ofNat_toNat, BitVec.ofNat_toNat,
    BitVec.setWidth_eq, BitVec.setWidth_eq, BitVec.setWidth_eq]

theorem wrappingSum_imm_zero (v1 v2 : Word) : wrappingSum v1 v2 0 = v1 + v2 := by
  have hzero : immWord 0 = 0 := by decide
  rw [wrappingSum_eq_add, hzero, add_zero]

/-- Settles O22: the laws of the bit vectors' own sum. -/
theorem wrappingSumIsCommutativeAndAssociative : Obligations.WrappingSumIsCommutativeAndAssociative := by
  unfold Obligations.WrappingSumIsCommutativeAndAssociative
  refine fun v1 v2 v3 imm => ⟨?_, ?_, wrappingSum_eq_add v1 v2 imm⟩
  · rw [wrappingSum_eq_add, wrappingSum_eq_add, add_comm v1 v2]
  · rw [wrappingSum_imm_zero, wrappingSum_imm_zero, wrappingSum_eq_add, wrappingSum_eq_add, add_assoc v1 v2 v3]

/-- Settles O26: EBREAK writes the status alone. -/
theorem ebreakCompletesHalted : Obligations.EbreakCompletesHalted := by
  unfold Obligations.EbreakCompletesHalted
  exact fun rd rs1 rs2 imm s =>
    ⟨_, exec_of_opcode_ebreak rfl s, rfl, fun _ => rfl, fun _ => rfl, rfl, rfl, rfl, rfl⟩

/-! ### The step of a decoded instruction -/

/-- Settles O29: the bytes at `pc` are the fetched word, and the pc's advance decides whether it is dispatched. -/
theorem stepRunsTheDecodedInstruction : Obligations.StepRunsTheDecodedInstruction := by
  unfold Obligations.StepRunsTheDecodedInstruction
  intro s i hs hfits hdecode
  rcases fetchWord_cases s with ⟨-, hpast, hfault⟩ | ⟨hfetch, -⟩
  · rcases hfits with hle | hwrap
    · omega
    · exact absurd (hfault.symm.trans hwrap) (by decide)
  · exact ⟨step_of_canAdvance hs hfetch hdecode, step_of_not_canAdvance hs hfetch hdecode⟩

/-- Settles O35: no step is defined in a terminal state, and one always is while RUNNING. -/
theorem terminalStatesNeverStep : Obligations.TerminalStatesNeverStep := by
  unfold Obligations.TerminalStatesNeverStep
  exact fun s => ⟨fun hs => ⟨step_of_not_running hs, fun k => runLoop_of_not_running k hs⟩, step_total⟩

/-! ### Halting -/

/-- Settles O27: the word decodes to an EBREAK, which halts the advanced machine, and a halted machine is not RUNNING. -/
theorem ebreakWordHaltsPastItself : Obligations.EbreakWordHaltsPastItself := by
  unfold Obligations.EbreakWordHaltsPastItself
  intro s w hs hc hfetch hop
  obtain ⟨i, hdecode, hi⟩ := decode_eq_ok_of_selectOpcode hc (hop ▸ selectOpcode_opcEbreak hc)
  refine ⟨fun hcan => ?_, step_of_not_canAdvance hs hfetch hdecode⟩
  have hstep := (step_of_canAdvance hs hfetch hdecode hcan).trans (exec_of_opcode_ebreak hi _)
  exact ⟨_, hstep, rfl, rfl, fun _ => rfl, fun _ => rfl, rfl, rfl, rfl, step_of_not_running (by simp)⟩

theorem Cause.finalStatus_ne_halted (cause : Cause) : cause.finalStatus ≠ .halted := by
  cases cause <;> simp [Cause.finalStatus]

/-- EBREAK is the one instruction that halts a RUNNING machine (R31, R150). -/
theorem exec_halted_iff (hs : s.status = .running) (h : exec i s = .next t) : t.status = .halted ↔ i.opcode = .ebreak := by
  cases i with
  | li | add => cases h; simp [hs, Instr.opcode]
  | ebreak => cases h; exact iff_of_true rfl rfl
  | ecall =>
    refine iff_of_false ?_ (by simp [Instr.opcode])
    obtain ⟨-, -, -, ⟨hstatus, -⟩ | ⟨cause, info, rfl, -⟩⟩ := execEcall_frame h
    · simp [hstatus, hs]
    · exact Cause.finalStatus_ne_halted cause

/-- Settles O28: the ends of a step before the dispatch raise, and in the dispatch EBREAK alone halts. -/
theorem onlyEbreakHalts : Obligations.OnlyEbreakHalts := by
  unfold Obligations.OnlyEbreakHalts
  intro s t h
  by_cases hreach : s.ReachesDispatch
  · obtain ⟨w, i, hfetch, hdecode, hcan⟩ := hreach
    obtain ⟨hs, -⟩ := step_cases h
    rw [step_of_canAdvance hs hfetch hdecode hcan] at h
    rw [exec_halted_iff (s := s.withPc (s.pc + 4)) hs h]
    refine ⟨fun hi => ⟨w, i, hfetch, hdecode, hi, hcan⟩, fun ⟨w', i', hw', hi', hop, _⟩ => ?_⟩
    obtain rfl := Option.some.inj (hfetch.symm.trans hw')
    obtain rfl := DecodeResult.ok.inj (hdecode.symm.trans hi')
    exact hop
  · refine iff_of_false ?_ fun ⟨w, i, hw, hi, _, hcan⟩ => hreach ⟨w, i, hw, hi, hcan⟩
    rcases step_outcome h with ⟨-, cause, info, -, rfl⟩ | ⟨hreach', -⟩
    · exact Cause.finalStatus_ne_halted cause
    · exact absurd hreach' hreach

/-! ### Unwritten memory -/

/-- Settles O43: four zero bytes are the word 0, and 0 is then the value of no opcode. -/
theorem unwrittenMemoryFaultsAsUnknownOpcode : Obligations.UnwrittenMemoryFaultsAsUnknownOpcode := by
  unfold Obligations.UnwrittenMemoryFaultsAsUnknownOpcode
  intro s hs hpc hecall hebreak hbytes
  have hfetch : s.fetchWord = some 0 := by
    refine fetchWord_of_bytesOfWord hpc fun j hj => (hbytes j hj).trans ?_
    interval_cases j <;> rfl
  have hfield : opcodeField 0 = 0 := by decide
  have hdecode : decode s.cfg 0 = .error (.unknownOpcode (opcodeField 0)) := by
    rw [decode_eq_unknownOpcode_opcodeField_iff, hfield]
    exact ⟨by decide, by decide, hecall.symm, hebreak.symm⟩
  exact ⟨_, step_of_decode_error hs hfetch hdecode, rfl, rfl, rfl, fun _ => rfl, fun _ => rfl, rfl⟩

/-! ### The code tables -/

/-- Settles O51: both tables by evaluation. -/
theorem codesAreTheTables : Obligations.CodesAreTheTables := by
  unfold Obligations.CodesAreTheTables
  exact ⟨by decide, by decide⟩

end Sys2Proof.Machine

/-! PROOFS. The invariant, kept by every operation, by every step, and by whatever the host does; and with it the fault record
(spec/10_state.md sections 2 and 5, spec/60_exceptions.md section 7). -/

namespace Sys2Proof.Machine

variable {s t : State}

/-! ### The invariant after each operation -/

/-- Settles O45: the memory is empty, the registers are 0, nothing is recorded, and the reference parameters are admissible. -/
theorem resetMeetsTheInvariant : Obligations.ResetMeetsTheInvariant := by
  unfold Obligations.ResetMeetsTheInvariant
  exact ⟨Memory.wf_nil, State.regs_reset 0, rfl, ⟨by decide, by decide⟩, rfl, by decide⟩

theorem State.Inv.writeReg (hs : s.Inv) (r : Reg) (v : Word) : (s.writeReg r v).Inv :=
  { hs with zeroReg := State.zeroReg_writeReg s hs.zeroReg r v }

theorem State.Inv.append (hs : s.Inv) (bytes : List Byte) : (s.append bytes).Inv := { hs with }

theorem State.Inv.withPc (hs : s.Inv) {a : Address} (ha : a.toNat % 4 = 0) : (s.withPc a).Inv :=
  { hs with pcAligned := ha }

theorem State.Inv.hostWrite (hs : s.Inv) (a : Address) (bytes : List Byte) : (s.hostWrite a bytes).Inv :=
  { hs with memWf := Memory.wf_write hs.memWf a bytes }

theorem State.Inv.attachSink (hs : s.Inv) : s.attachSink.Inv := { hs with }

/-- Nothing is recorded while the machine is RUNNING. -/
theorem State.Inv.fault_of_running (hs : s.Inv) (hrun : s.status = .running) : s.fault = ⟨.none, 0⟩ := by
  simpa [State.FaultAgrees, hrun] using hs.faultAgrees

/-- A machine of the invariant that has not failed has nothing recorded. -/
theorem State.Inv.fault_of_not_failed (hs : s.Inv) (hok : s.failed = false) : s.fault = ⟨.none, 0⟩ := by
  cases hstatus : s.status with
  | running | halted => simpa [State.FaultAgrees, hstatus] using hs.faultAgrees
  | faulted | aborted => simp [State.failed, hstatus] at hok

theorem State.Inv.halt (hs : s.Inv) (hrun : s.status = .running) : s.halt.Inv :=
  { hs with faultAgrees := hs.fault_of_running hrun }

/-- A raise of a cause that some word raises keeps the invariant (R107, R171). -/
theorem State.Inv.raise (hs : s.Inv) {cause : Cause} (info : Word)
    (hcause : cause ≠ .none ∧ cause ≠ .unknownRegister ∧ cause ≠ .immediateConversion) : (s.raise cause info).Inv := by
  obtain ⟨hnone, hreg, himm⟩ := hcause
  refine { hs with faultAgrees := ?_, causeReachable := ⟨hreg, himm⟩ }
  cases cause with
  | none => exact absurd rfl hnone
  | unknownRegister => exact absurd rfl hreg
  | immediateConversion => exact absurd rfl himm
  | unsupportedFd => rfl
  | unknownOpcode | unknownSyscall | addressOverflow => exact ⟨nofun, nofun⟩

/-- The address a raise of the dispatch leaves `pc` at is aligned where `pc` is (R57, R108). -/
theorem State.PcAligned.faultPc (hs : s.PcAligned) : s.faultPc.toNat % 4 = 0 := by
  unfold State.PcAligned at hs
  unfold State.faultPc
  split
  · rw [BitVec.toNat_sub, show (4 : Address).toNat = 4 from rfl]
    omega
  · exact hs

theorem State.Inv.raiseInDispatch (hs : s.Inv) {cause : Cause} (info : Word)
    (hcause : cause ≠ .none ∧ cause ≠ .unknownRegister ∧ cause ≠ .immediateConversion) :
    (s.raiseInDispatch cause info).Inv :=
  (hs.raise info hcause).withPc hs.pcAligned.faultPc

/-- Every instruction of a RUNNING machine keeps the invariant: each of its effects does. -/
theorem State.Inv.exec {i : Instr} (hs : s.Inv) (hrun : s.status = .running) (h : exec i s = .next t) : t.Inv := by
  rcases exec_cases h with ⟨r, v, rfl⟩ | rfl | ⟨cause, info, rfl, hcause⟩ | ⟨bytes, rfl⟩ | rfl
  · exact hs.writeReg r v
  · exact hs.halt hrun
  · refine hs.raiseInDispatch info ?_
    rcases hcause with rfl | rfl | rfl <;> decide
  · exact hs.append bytes
  · exact hs

/-- Every step keeps the invariant: the raises before the dispatch record causes that words raise, the advance keeps `pc`
aligned, and the instruction keeps the rest. -/
theorem State.Inv.step (hs : s.Inv) (h : step s = .next t) : t.Inv := by
  obtain ⟨hrun, ⟨-, rfl⟩ | ⟨w, -, ⟨e, hdecode, rfl⟩ | ⟨i, -, ⟨-, rfl⟩ | ⟨-, hexec⟩⟩⟩⟩ := step_cases h
  · exact hs.raise _ (by decide)
  · rw [eq_unknownOpcode_of_decode_error hs.cfgWf hdecode]
    exact hs.raise _ ⟨nofun, nofun, nofun⟩
  · exact hs.raise _ (by decide)
  · have haligned : (s.pc + 4).toNat % 4 = 0 := by
      have hpc : s.pc.toNat % 4 = 0 := hs.pcAligned
      rw [BitVec.toNat_add, show (4 : Address).toNat = 4 from rfl]
      omega
    exact (hs.withPc haligned).exec hrun hexec

/-- Settles O46: by the cases of a step, and in the dispatch by the cases of an instruction. -/
theorem everyStepKeepsTheInvariant : Obligations.EveryStepKeepsTheInvariant := by
  unfold Obligations.EveryStepKeepsTheInvariant
  exact fun s t hs h => hs.step h

/-- Settles O47: the invariant holds after reset and is kept by each of the host's moves and by the step. -/
theorem sessionsKeepTheInvariant : Obligations.SessionsKeepTheInvariant := by
  unfold Obligations.SessionsKeepTheInvariant
  exact fun events t h => reached_of_created resetMeetsTheInvariant (fun a b hs => hs.hostWrite a [b])
    State.Inv.attachSink (fun hstep hs => hs.step hstep) h

/-! ### The fault record -/

/-- A failed machine is in a terminal state. -/
theorem State.not_running_of_failed (hs : s.failed = true) : s.status ≠ .running := fun hrun =>
  absurd hs (Bool.eq_false_iff.1 (State.failed_eq_false_of_running hrun))

/-- Settles O37: a failing step records a cause where there was none; any other leaves a machine of the invariant that has not
failed, which has nothing recorded. -/
theorem faultRecordIsWrittenOnce : Obligations.FaultRecordIsWrittenOnce := by
  unfold Obligations.FaultRecordIsWrittenOnce
  refine ⟨rfl, fun s t hs h => ⟨fun hne => ?_, fun hfail => ?_⟩, fun k s hs => ?_⟩
  · obtain ⟨hrun, -⟩ := step_cases h
    by_contra hok
    exact hne (((hs.step h).fault_of_not_failed (Bool.eq_false_iff.2 hok)).trans (hs.fault_of_running hrun).symm)
  · obtain ⟨hrun, -⟩ := step_cases h
    obtain ⟨cause, info, hcause, pc, rfl⟩ := step_failed_eq_raise_withPc h hfail
    rw [hs.fault_of_running hrun]
    exact fun heq => hcause (congrArg FaultRecord.cause heq)
  · rw [runLoop_of_not_running k (State.not_running_of_failed hs)]

end Sys2Proof.Machine

/-! PROOFS. The output trace: what a step adds to it, and that no step reads it (spec/10_state.md section 5, spec/42_system.md
section 3, spec/40_sequencer.md section 6). -/

namespace Sys2Proof.Machine

variable {s t : State} {i : Instr} {f : State → Host.Outcome State Fault Refusal} {P : Prop}

/-! ### Adding to the trace without reading it -/

/-- `f` takes `s` to `t` and adds `new` to the trace, and does the same from `s` with any other trace. -/
def Adds (f : State → Host.Outcome State Fault Refusal) (s t : State) (new : List (List Byte)) : Prop :=
  ∀ tr, f (s.withTrace tr) = .next (t.withTrace (tr ++ new))

/-- `f` takes `s` to `t`, adds at most one append to the trace without reading it, and adds one only where `P` holds. -/
def AddsAtMostOneIf (P : Prop) (f : State → Host.Outcome State Fault Refusal) (s t : State) : Prop :=
  ∃ new, new.length ≤ 1 ∧ Adds f s t new ∧ (new ≠ [] → P)

/-- The trace of `s` is one of those that `Adds` speaks of. -/
theorem Adds.trace_eq {new : List (List Byte)} (h : Adds f s t new) (hnext : f s = .next t) :
    t.trace = s.trace ++ new := by
  have heq : t = t.withTrace (s.trace ++ new) := Host.Outcome.next.inj (hnext.symm.trans (h s.trace))
  rw [heq, State.withTrace_trace]

theorem addsAtMostOneIf_of_nothing (h : ∀ tr, f (s.withTrace tr) = .next (t.withTrace tr)) : AddsAtMostOneIf P f s t :=
  ⟨[], by simp, fun tr => by rw [h, List.append_nil], fun hne => absurd rfl hne⟩

theorem addsAtMostOneIf_of_append {bytes : List Byte} (hP : P)
    (h : ∀ tr, f (s.withTrace tr) = .next (t.withTrace (tr ++ [bytes]))) : AddsAtMostOneIf P f s t :=
  ⟨[bytes], by simp, h, fun _ => hP⟩

/-! ### ECALL -/

/-- The second check that fails: a Write to another fd raises with it (R149, R176). -/
theorem execEcall_of_unsupportedFd (hnum : s.readReg s.cfg.sysNumReg = syscallWrite)
    (hfd : s.readReg s.cfg.sysFdReg ≠ s.cfg.stdoutFd) :
    execEcall s = .next (s.raiseInDispatch .unsupportedFd (s.readReg s.cfg.sysFdReg)) := by
  rcases execEcall_cases s with ⟨-, hne⟩ | ⟨he, -⟩
  · exact absurd hnum hne
  · rcases writeSyscall_cases s with ⟨hw, -⟩ | ⟨-, heq, -⟩ | ⟨-, heq, -⟩
    · rw [he, hw]
    · exact absurd heq hfd
    · exact absurd heq hfd

/-- A Write that passes every check outputs the bytes of its buffer (R146). -/
theorem execEcall_of_memRead_eq_some {bytes : List Byte} (hnum : s.readReg s.cfg.sysNumReg = syscallWrite)
    (hfd : s.readReg s.cfg.sysFdReg = s.cfg.stdoutFd)
    (hread : s.memRead (s.readReg s.cfg.sysBufReg) (s.readReg s.cfg.sysLenReg).toNat = some bytes) :
    execEcall s = .next (s.output bytes) := by
  rcases execEcall_cases s with ⟨-, hne⟩ | ⟨he, -⟩
  · exact absurd hnum hne
  · rw [he, State.writeSyscall]
    simp only [hfd, hread, ne_eq, not_true_eq_false, if_false]

/-- ECALL from every trace: the same raise, or the output of the same bytes, because no check reads the trace. -/
theorem execEcall_withTrace_cases (s : State) :
    (∃ cause info, ∀ tr, execEcall (s.withTrace tr) = .next ((s.withTrace tr).raiseInDispatch cause info)) ∨
      ∃ bytes, ∀ tr, execEcall (s.withTrace tr) = .next ((s.withTrace tr).output bytes) := by
  by_cases hnum : s.readReg s.cfg.sysNumReg = syscallWrite
  · by_cases hfd : s.readReg s.cfg.sysFdReg = s.cfg.stdoutFd
    · cases hread : s.memRead (s.readReg s.cfg.sysBufReg) (s.readReg s.cfg.sysLenReg).toNat with
      | none =>
        exact .inl ⟨.addressOverflow, s.readReg s.cfg.sysBufReg,
          fun tr => execEcall_of_memRead_eq_none (s := s.withTrace tr) hnum hfd hread⟩
      | some bytes =>
        exact .inr ⟨bytes, fun tr => execEcall_of_memRead_eq_some (s := s.withTrace tr) hnum hfd hread⟩
    · exact .inl ⟨.unsupportedFd, s.readReg s.cfg.sysFdReg,
        fun tr => execEcall_of_unsupportedFd (s := s.withTrace tr) hnum hfd⟩
  · exact .inl ⟨.unknownSyscall, s.readReg s.cfg.sysNumReg,
      fun tr => execEcall_of_unknown (s := s.withTrace tr) hnum⟩

theorem output_withTrace_of_sink {bytes : List Byte} {tr : List (List Byte)} (hsink : s.cfg.sinkAttached = true) :
    (s.withTrace tr).output bytes = s.withTrace (tr ++ [bytes]) := if_pos hsink

theorem output_withTrace_of_no_sink {bytes : List Byte} {tr : List (List Byte)} (hsink : ¬ s.cfg.sinkAttached = true) :
    (s.withTrace tr).output bytes = s.withTrace tr := if_neg hsink

/-- ECALL adds nothing, or one append where a sink is attached (R145, R147). -/
theorem execEcall_adds (h : execEcall s = .next t) : AddsAtMostOneIf (s.cfg.sinkAttached = true) execEcall s t := by
  rcases execEcall_withTrace_cases s with ⟨cause, info, hraise⟩ | ⟨bytes, houtput⟩
  · obtain rfl := Host.Outcome.next.inj (h.symm.trans (hraise s.trace))
    exact addsAtMostOneIf_of_nothing hraise
  · obtain rfl := Host.Outcome.next.inj (h.symm.trans (houtput s.trace))
    by_cases hsink : s.cfg.sinkAttached = true
    · rw [output_withTrace_of_sink hsink]
      exact addsAtMostOneIf_of_append hsink fun tr => (houtput tr).trans (by rw [output_withTrace_of_sink hsink]; rfl)
    · rw [output_withTrace_of_no_sink hsink]
      exact addsAtMostOneIf_of_nothing fun tr => (houtput tr).trans (by rw [output_withTrace_of_no_sink hsink]; rfl)

/-! ### Every instruction and every step -/

/-- Every instruction but ECALL leaves the trace, and none reads it. -/
theorem exec_adds (h : exec i s = .next t) :
    AddsAtMostOneIf (s.cfg.sinkAttached = true ∧ i.opcode = .ecall) (exec i) s t := by
  cases i with
  | ecall rd rs1 rs2 imm =>
    obtain ⟨new, hlen, hadds, hsink⟩ := execEcall_adds h
    exact ⟨new, hlen, hadds, fun hne => ⟨hsink hne, rfl⟩⟩
  | li | add | ebreak => cases h; exact addsAtMostOneIf_of_nothing fun _ => rfl

/-- Everything a step adds to the trace: nothing where it raises before the dispatch, and else what its instruction adds. -/
theorem step_adds (h : step s = .next t) :
    AddsAtMostOneIf (s.cfg.sinkAttached = true ∧
      ∃ w i, s.fetchWord = some w ∧ decode s.cfg w = .ok i ∧ i.opcode = .ecall) step s t := by
  obtain ⟨hs, ⟨hfetch, rfl⟩ | ⟨w, hfetch, ⟨e, hdecode, rfl⟩ | ⟨i, hdecode, ⟨hstuck, rfl⟩ | ⟨hadv, hexec⟩⟩⟩⟩ := step_cases h
  · exact addsAtMostOneIf_of_nothing fun tr => step_of_fetchWord_eq_none (s := s.withTrace tr) hs hfetch
  · exact addsAtMostOneIf_of_nothing fun tr => step_of_decode_error (s := s.withTrace tr) hs hfetch hdecode
  · have hlast : ¬ s.CanAdvance := advancePc_eq_none_iff.1 hstuck
    exact addsAtMostOneIf_of_nothing fun tr => step_of_not_canAdvance (s := s.withTrace tr) hs hfetch hdecode hlast
  · have hcan : s.CanAdvance := not_not.1 (mt advancePc_eq_none_iff.2 (ne_of_eq_of_ne hadv (Option.some_ne_none _)))
    obtain ⟨new, hlen, hadds, hsink⟩ := exec_adds hexec
    refine ⟨new, hlen, fun tr => ?_, fun hne => ?_⟩
    · exact (step_of_canAdvance (s := s.withTrace tr) hs hfetch hdecode hcan).trans (hadds tr)
    · obtain ⟨hattached, hi⟩ := hsink hne
      exact ⟨hattached, w, i, hfetch, hdecode, hi⟩

/-- Settles O38: what a step adds, from its own trace and from every other. -/
theorem traceIsAppendOnlyAndNeverRead : Obligations.TraceIsAppendOnlyAndNeverRead := by
  unfold Obligations.TraceIsAppendOnlyAndNeverRead
  intro s t h
  obtain ⟨new, hlen, hadds, hsink⟩ := step_adds h
  exact ⟨new, hlen, hadds.trace_eq h, hadds, hsink⟩

/-! ### The append signals -/

/-- The signals show the first of what a step adds. -/
theorem sinkAppend_of_step {new : List (List Byte)} (h : step s = .next t) (htrace : t.trace = s.trace ++ new) :
    s.sinkAppend = new.head? := by
  simp only [State.sinkAppend, h, htrace, List.drop_left]

/-- Settles O49: a step adds at most one append, so the first is all of them. -/
theorem sinkSignalsShowEveryAppend : Obligations.SinkSignalsShowEveryAppend := by
  unfold Obligations.SinkSignalsShowEveryAppend
  intro s t h
  obtain ⟨new, hlen, htrace, -⟩ := traceIsAppendOnlyAndNeverRead s t h
  rw [sinkAppend_of_step h htrace, htrace]
  match new, hlen with
  | [], _ => simp
  | [bytes], _ => simp

end Sys2Proof.Machine

/-! PROOFS. What every run keeps and where it goes: its parameters, its trace, its `pc`, and its end under `fault`
(spec/10_state.md section 7, spec/40_sequencer.md R105, R110). -/

namespace Sys2Proof.Machine

variable {s t : State}

/-! ### The last step of a run -/

/-- A run that goes one step further has ended before, or its last step is a step of the machine. -/
theorem runLoop_succ_cases (k : Nat) (s : State) :
    ((runLoop k s).status ≠ .running ∧ runLoop (k + 1) s = runLoop k s) ∨
      step (runLoop k s) = .next (runLoop (k + 1) s) := by
  induction k generalizing s with
  | zero =>
    by_cases hs : s.status = .running
    · obtain ⟨t, ht⟩ := step_total hs
      exact .inr (by rw [runLoop_succ 0 ht, runLoop_zero, runLoop_zero, ht])
    · exact .inl ⟨hs, runLoop_of_not_running 1 hs⟩
  | succ k ih =>
    by_cases hs : s.status = .running
    · obtain ⟨t, ht⟩ := step_total hs
      simpa only [runLoop_succ _ ht] using ih t
    · simp only [runLoop_of_not_running _ hs]
      exact .inl ⟨hs, trivial⟩

/-- What every step keeps holds after every run from a state where it holds. -/
theorem runLoop_of_step {P : State → Prop} (hstep : ∀ {s t}, step s = .next t → P s → P t) (k : Nat) (hs : P s) :
    P (runLoop k s) := by
  induction k with
  | zero => exact hs
  | succ k ih =>
    rcases runLoop_succ_cases k s with ⟨-, h⟩ | h
    · exact h ▸ ih
    · exact hstep h ih

/-! ### The parameters -/

/-- No instruction writes a parameter (R36). -/
theorem exec_cfg {i : Instr} (h : exec i s = .next t) : t.cfg = s.cfg := by
  rcases exec_cases h with ⟨r, v, rfl⟩ | rfl | ⟨cause, info, rfl, -⟩ | ⟨bytes, rfl⟩ | rfl <;> rfl

/-- No step writes a parameter (R36). -/
theorem step_cfg (h : step s = .next t) : t.cfg = s.cfg := by
  obtain ⟨-, ⟨-, rfl⟩ | ⟨w, -, ⟨e, -, rfl⟩ | ⟨i, -, ⟨-, rfl⟩ | ⟨-, hexec⟩⟩⟩⟩ := step_cases h
  · rfl
  · rfl
  · rfl
  · rw [exec_cfg hexec, State.withPc_cfg]

theorem runLoop_cfg (k : Nat) (s : State) : (runLoop k s).cfg = s.cfg :=
  runLoop_of_step (P := fun u => u.cfg = s.cfg) (fun h hs => (step_cfg h).trans hs) k rfl

/-! ### The trace -/

/-- With no sink attached a step leaves the trace (R144). -/
theorem step_trace_of_no_sink (h : step s = .next t) (hsink : s.cfg.sinkAttached = false) : t.trace = s.trace := by
  obtain ⟨new, -, htrace, -, hattached⟩ := traceIsAppendOnlyAndNeverRead s t h
  by_cases hnew : new = []
  · rw [htrace, hnew, List.append_nil]
  · exact absurd (hattached hnew).1 (Bool.eq_false_iff.1 hsink)

/-- Settles O40: no step writes a parameter, and so no step of a run without a sink changes the trace. -/
theorem parametersAreFixedAndNoSinkMeansNoOutput : Obligations.ParametersAreFixedAndNoSinkMeansNoOutput := by
  unfold Obligations.ParametersAreFixedAndNoSinkMeansNoOutput
  refine fun k s => ⟨runLoop_cfg k s, fun hsink => ?_⟩
  obtain ⟨-, htrace⟩ := runLoop_of_step (P := fun u => u.cfg.sinkAttached = false ∧ u.trace = s.trace)
    (fun h ⟨hu, htrace⟩ => ⟨step_cfg h ▸ hu, (step_trace_of_no_sink h hu).trans htrace⟩) k ⟨hsink, rfl⟩
  exact htrace

/-- A step only adds to the trace (R33). -/
theorem step_trace_extends (h : step s = .next t) : s.trace <+: t.trace := by
  obtain ⟨new, -, htrace, -⟩ := traceIsAppendOnlyAndNeverRead s t h
  exact ⟨new, htrace.symm⟩

theorem step_trace_length_le (h : step s = .next t) : t.trace.length ≤ s.trace.length + 1 := by
  obtain ⟨new, hlen, htrace, -⟩ := traceIsAppendOnlyAndNeverRead s t h
  rw [htrace, List.length_append]
  omega

theorem runLoop_trace_length_le (k : Nat) (s : State) : (runLoop k s).trace.length ≤ s.trace.length + k := by
  induction k with
  | zero => rfl
  | succ k ih =>
    rcases runLoop_succ_cases k s with ⟨-, h⟩ | h
    · rw [h]
      omega
    · have hstep := step_trace_length_le h
      omega

/-- Settles O39: each step a run goes further extends the trace, by at most one append. -/
theorem longerRunsExtendTheTrace : Obligations.LongerRunsExtendTheTrace := by
  unfold Obligations.LongerRunsExtendTheTrace
  intro j k s hjk
  refine ⟨?_, runLoop_trace_length_le k s⟩
  induction k, hjk using Nat.le_induction with
  | base => exact ⟨[], List.append_nil _⟩
  | succ k _ ih =>
    rcases runLoop_succ_cases k s with ⟨-, h⟩ | h
    · exact h ▸ ih
    · exact ih.trans (step_trace_extends h)

/-! ### The `pc` of a run that goes on -/

/-- A machine still RUNNING after `k + 1` steps was RUNNING after `k`, and its last step was a step of the machine. -/
theorem step_of_runLoop_succ_running {k : Nat} (h : (runLoop (k + 1) s).status = .running) :
    step (runLoop k s) = .next (runLoop (k + 1) s) := by
  rcases runLoop_succ_cases k s with ⟨hend, heq⟩ | hstep
  · exact absurd (heq ▸ h) hend
  · exact hstep

/-- Settles O41: by induction on the steps, each of which advances `pc` by one word because it does not fail. -/
theorem controlFlowIsSequential : Obligations.ControlFlowIsSequential := by
  unfold Obligations.ControlFlowIsSequential
  intro k s h
  induction k with
  | zero => rw [runLoop_zero, Nat.mul_zero, Nat.add_zero, Nat.mod_eq_of_lt s.pc.isLt]
  | succ k ih =>
    have hstep := step_of_runLoop_succ_running h
    obtain ⟨hrun, -⟩ := step_cases hstep
    rw [step_pc_of_not_failed hstep (State.failed_eq_false_of_running h), BitVec.toNat_add, ih hrun,
      show (4 : Address).toNat = 4 from rfl]
    omega

/-- Under `fault` a step that does not fail starts below the last word, so its advance does not wrap (R103). -/
theorem step_pc_toNat_of_fault (h : step s = .next t) (hok : t.failed = false) (hmode : s.cfg.addrOverflow = .fault) :
    t.pc.toNat = s.pc.toNat + 4 := by
  have hlow : s.pc.toNat < 0xFFFFFFFC := by
    rcases step_outcome h with ⟨-, cause, info, -, rfl⟩ | ⟨⟨w, i, hfetch, -, hcan⟩, -⟩
    · exact absurd (State.failed_raise s cause info) (Bool.eq_false_iff.1 hok)
    · obtain ⟨u, hadv⟩ := Option.ne_none_iff_exists'.1 (mt advancePc_eq_none_iff.1 (not_not.2 hcan))
      exact pc_lt_of_advancePc hmode hfetch hadv
  rw [step_pc_of_not_failed h hok, BitVec.toNat_add, show (4 : Address).toNat = 4 from rfl]
  omega

/-- Under `fault` the `pc` of a run that goes on rises by 4 a step and never wraps. -/
theorem runLoop_pc_of_fault {k : Nat} (hmode : s.cfg.addrOverflow = .fault) (h : (runLoop k s).status = .running) :
    (runLoop k s).pc.toNat = s.pc.toNat + 4 * k := by
  induction k with
  | zero => rw [runLoop_zero, Nat.mul_zero, Nat.add_zero]
  | succ k ih =>
    have hstep := step_of_runLoop_succ_running h
    obtain ⟨hrun, -⟩ := step_cases hstep
    rw [step_pc_toNat_of_fault hstep (State.failed_eq_false_of_running h) (runLoop_cfg k s ▸ hmode), ih hrun]
    omega

/-- Settles O42: after 2^30 steps the `pc` of a run that goes on would be past the top. -/
theorem everyRunEndsUnderFault : Obligations.EveryRunEndsUnderFault := by
  unfold Obligations.EveryRunEndsUnderFault
  intro k s hk hmode hrun
  have hpc := runLoop_pc_of_fault hmode hrun
  have htop : (runLoop k s).pc.toNat < 2 ^ 32 := (runLoop k s).pc.isLt
  omega

end Sys2Proof.Machine

/-! PROOFS. A started session: whatever events come, its machine only steps, and a machine that has ended stays as it is
(spec/60_exceptions.md section 7, spec/20_memory.md section 6). -/

namespace Sys2Proof.Machine

variable {s t : State} {x : Session}

/-- Once the run is started an event leaves the machine or steps it: loads and attachments are not honoured (R190). -/
theorem Session.handle_of_started (hx : x.started = true) (e : Event) :
    (x.handle e).started = true ∧
      ((x.handle e).machine = x.machine ∨ step x.machine = .next (x.handle e).machine) := by
  cases e with
  | loadByte a b => simp [Session.handle, hx]
  | attachSink => simp [Session.handle, hx]
  | run => exact ⟨rfl, .inl rfl⟩
  | coreStep =>
    simp only [Session.handle, Session.advance, hx]
    split
    · rename_i hstep
      exact ⟨rfl, .inr hstep⟩
    · exact ⟨hx, .inl rfl⟩

/-- Whatever events come to a started session, the run stays started and the machine only steps. -/
theorem Session.reaches_of_started (hx : x.started = true) (events : List Event) :
    (x.handleAll events).started = true ∧ Reaches x.machine (x.handleAll events).machine := by
  induction events using List.reverseRecOn with
  | nil => exact ⟨hx, .refl _⟩
  | append_singleton es e ih =>
    obtain ⟨hstarted, hreach⟩ := ih
    rw [Session.handleAll, List.foldl_concat]
    obtain ⟨hstarted', hsame | hstep⟩ := Session.handle_of_started hstarted e
    · exact ⟨hstarted', hsame.symm ▸ hreach⟩
    · exact ⟨hstarted', hreach.step hstep⟩

/-- Settles O48: the session's machine only steps, and no step writes memory or a parameter or takes anything from the trace. -/
theorem nothingChangesMemoryOnceTheRunStarts : Obligations.NothingChangesMemoryOnceTheRunStarts := by
  unfold Obligations.NothingChangesMemoryOnceTheRunStarts
  intro x events hx
  obtain ⟨hstarted, hreach⟩ := Session.reaches_of_started hx events
  refine ⟨?_, ?_, ?_, hstarted⟩
  · exact reached_of_step (P := fun u => u.mem = x.machine.mem) (fun h hu => (step_mem h).trans hu) hreach rfl
  · exact reached_of_step (P := fun u => u.cfg = x.machine.cfg) (fun h hu => (step_cfg h).trans hu) hreach rfl
  · exact reached_of_step (P := fun u => x.machine.trace <+: u.trace) (fun h hu => hu.trans (step_trace_extends h)) hreach
      ⟨[], List.append_nil _⟩

/-! ### Inspection -/

theorem Session.ended_eq_true_iff : x.ended = true ↔ x.started = true ∧ x.machine.status ≠ .running := by
  simp [Session.ended]

/-- From a terminal state no other is reached (R100). -/
theorem reaches_eq_of_not_running (hs : s.status ≠ .running) (h : Reaches s t) : t = s :=
  reached_of_step (P := fun u => u = s) (fun hstep hu => absurd (step_cases (hu ▸ hstep)).1 hs) h rfl

/-- Settles O50: inspection looks at the machine exactly when the run has ended, and an ended machine reaches no other state. -/
theorem inspectionSeesTheFrozenState : Obligations.InspectionSeesTheFrozenState := by
  unfold Obligations.InspectionSeesTheFrozenState
  refine fun x events => ⟨fun hend => ?_, fun hend => ?_⟩
  · obtain ⟨hstarted, hstatus⟩ := Session.ended_eq_true_iff.1 hend
    obtain ⟨-, hreach⟩ := Session.reaches_of_started hstarted events
    exact ⟨if_pos hend, fun r => if_pos hend, fun a => if_pos hend, reaches_eq_of_not_running hstatus hreach⟩
  · have hnot := Bool.eq_false_iff.1 hend
    exact ⟨if_neg hnot, fun r => if_neg hnot, fun a => if_neg hnot⟩

end Sys2Proof.Machine
